-- ==== Sys2Proof/Word.lean ====
section
/-! DEFINITION. The bit vectors of the core: registers, the pc and addresses are 32 bits wide
(spec/00_scope.md R8), memory holds bytes (spec/10_state.md R32). -/

namespace Sys2Proof

/-- `bits32` (R8): register contents, the pc, addresses and instruction words. -/
abbrev Word := BitVec 32

/-- One byte of memory, of an image or of a host stream (R32, R35). -/
abbrev Byte := BitVec 8

end Sys2Proof
end

