-- ==== Sys2Proof/Syntax.lean ====
section
/-! DEFINITION. The abstract syntax: the 25 machine instructions of spec/00_scope.md R2, one constructor per row of
spec/opcode_table.json. Operands stand in the order of the assembler's operands (spec/30_encoding.md R104). -/

namespace Sys2Proof

/-- A general register's index 0 .. 31 (spec/10_state.md R20). -/
abbrev Reg := Fin 32

/-- A 16-bit immediate field, `w[15:0]` (spec/30_encoding.md R82). -/
abbrev Imm := BitVec 16

/-- A 26-bit jump field, `w[25:0]` (R83). -/
abbrev Target := BitVec 26

/-- `$zero`, the hard-wired register (R20, R21). -/
def Reg.zero : Reg := 0
/-- `$v0`: the syscall selector and the register input lands in (spec/44_syscall.md). -/
def Reg.v0 : Reg := 2
/-- `$a0`: the first syscall operand. -/
def Reg.a0 : Reg := 4
/-- `$a1`: the second syscall operand. -/
def Reg.a1 : Reg := 5
/-- `$t0` of the spec's examples. -/
def Reg.t0 : Reg := 8
/-- `$t1` of the spec's examples. -/
def Reg.t1 : Reg := 9
/-- `$t2` of the spec's examples. -/
def Reg.t2 : Reg := 10
/-- `$ra`, "the link register (index 31)". -/
def Reg.ra : Reg := 31

/-- The assembler name of each register, by index (R20; the conventional map, decision D2, log 20). -/
def Reg.names : List String :=
  ["$zero", "$at", "$v0", "$v1", "$a0", "$a1", "$a2", "$a3"] ++
  ["$t0", "$t1", "$t2", "$t3", "$t4", "$t5", "$t6", "$t7"] ++
  ["$s0", "$s1", "$s2", "$s3", "$s4", "$s5", "$s6", "$s7"] ++
  ["$t8", "$t9", "$k0", "$k1", "$gp", "$sp", "$fp", "$ra"]

/-- The machine instructions. `shamt` is a count (`u(shamt)`, R85); that it fits its field is WellFormed's check. -/
inductive Instr where
  /-- R140: `add rd, rs, rt` -/
  | add (rd rs rt : Reg)
  /-- R141: `sub rd, rs, rt` -/
  | sub (rd rs rt : Reg)
  /-- R142: `and rd, rs, rt` -/
  | and (rd rs rt : Reg)
  /-- R143: `or rd, rs, rt` -/
  | or (rd rs rt : Reg)
  /-- R144: `nor rd, rs, rt` -/
  | nor (rd rs rt : Reg)
  /-- R145: `slt rd, rs, rt` -/
  | slt (rd rs rt : Reg)
  /-- R146: `mul rd, rs, rt` -/
  | mul (rd rs rt : Reg)
  /-- R147: `sll rd, rt, shamt` -/
  | sll (rd rt : Reg) (shamt : Nat)
  /-- R148: `srl rd, rt, shamt` -/
  | srl (rd rt : Reg) (shamt : Nat)
  /-- R177: `jr rs` -/
  | jr (rs : Reg)
  /-- R210: `syscall` -/
  | syscall
  /-- R149: `addi rt, rs, imm` -/
  | addi (rt rs : Reg) (imm : Imm)
  /-- R150: `slti rt, rs, imm` -/
  | slti (rt rs : Reg) (imm : Imm)
  /-- R151: `andi rt, rs, imm` -/
  | andi (rt rs : Reg) (imm : Imm)
  /-- R152: `ori rt, rs, imm` -/
  | ori (rt rs : Reg) (imm : Imm)
  /-- R171: `beq rs, rt, label` -/
  | beq (rs rt : Reg) (imm : Imm)
  /-- R172: `bne rs, rt, label` -/
  | bne (rs rt : Reg) (imm : Imm)
  /-- R173: `blt rs, rt, label` -/
  | blt (rs rt : Reg) (imm : Imm)
  /-- R174: `bge rs, rt, label` -/
  | bge (rs rt : Reg) (imm : Imm)
  /-- R191: `lw rt, imm(rs)` -/
  | lw (rt rs : Reg) (imm : Imm)
  /-- R192: `lbu rt, imm(rs)` -/
  | lbu (rt rs : Reg) (imm : Imm)
  /-- R193: `sw rt, imm(rs)` -/
  | sw (rt rs : Reg) (imm : Imm)
  /-- R194: `sb rt, imm(rs)` -/
  | sb (rt rs : Reg) (imm : Imm)
  /-- R175: `j label` -/
  | j (target : Target)
  /-- R176: `jal label` -/
  | jal (target : Target)
  deriving DecidableEq, Repr

end Sys2Proof
end

