-- ==== Sys2Proof/WellFormed.lean ====
section
/-! DEFINITION. Which terms of `Instr` are instructions of the core: those an encoding exists for
(spec/30_encoding.md R81 to R83). Registers, immediates and targets fit their fields by their types; the one check
left is that a shift amount fits its 5-bit field ("a shift by 32 or more cannot be encoded", spec/41_alu.md R147). -/

namespace Sys2Proof

/-- R147, R148: a shift amount is `u(shamt)` of a 5-bit field. -/
def shamtFits (shamt : Nat) : Bool := decide (shamt < 32)

/-- The instruction has an encoding. -/
def Instr.wellFormed : Instr → Bool
  | .add _ _ _ => true
  | .sub _ _ _ => true
  | .and _ _ _ => true
  | .or _ _ _ => true
  | .nor _ _ _ => true
  | .slt _ _ _ => true
  | .mul _ _ _ => true
  | .sll _ _ shamt => shamtFits shamt
  | .srl _ _ shamt => shamtFits shamt
  | .jr _ => true
  | .syscall => true
  | .addi _ _ _ => true
  | .slti _ _ _ => true
  | .andi _ _ _ => true
  | .ori _ _ _ => true
  | .beq _ _ _ => true
  | .bne _ _ _ => true
  | .blt _ _ _ => true
  | .bge _ _ _ => true
  | .lw _ _ _ => true
  | .lbu _ _ _ => true
  | .sw _ _ _ => true
  | .sb _ _ _ => true
  | .j _ => true
  | .jal _ => true

end Sys2Proof
end

