-- ==== Sys2Proof/Decode.lean ====
section
/-! DEFINITION. The decoder, total on any word and on any bytes and rejecting by name, and after it the encoder, both
written from the layouts of spec/30_encoding.md R81 to R83 and the maps R86, R87. The numeric values are the spec's own
(decisions D4, D5, D6; log 9). -/

namespace Sys2Proof

/-! ## Fields of a word (spec/00_scope.md R12, spec/40_cycle.md R122) -/

/-- `op = w[31:26]`. -/
def opField (w : Word) : BitVec 6 := w.extractLsb' 26 6
/-- `rs = w[25:21]`. -/
def rsField (w : Word) : Reg := (w.extractLsb' 21 5).toFin
/-- `rt = w[20:16]`. -/
def rtField (w : Word) : Reg := (w.extractLsb' 16 5).toFin
/-- `rd = w[15:11]`. -/
def rdField (w : Word) : Reg := (w.extractLsb' 11 5).toFin
/-- `u(shamt)` with `shamt = w[10:6]`. -/
def shamtField (w : Word) : Nat := (w.extractLsb' 6 5).toNat
/-- `funct = w[5:0]`. -/
def functField (w : Word) : BitVec 6 := w.extractLsb' 0 6
/-- `imm = w[15:0]`. -/
def immField (w : Word) : Imm := w.extractLsb' 0 16
/-- `target = w[25:0]`. -/
def targetField (w : Word) : Target := w.extractLsb' 0 26

/-! ## Primary opcodes (R86) and functions of op 0 (R87) -/

/-- R86: op 0 selects by funct -/
def opSpecial : BitVec 6 := 0x00#6
/-- R86 -/
def opJ : BitVec 6 := 0x02#6
/-- R86 -/
def opJal : BitVec 6 := 0x03#6
/-- R86 -/
def opBeq : BitVec 6 := 0x04#6
/-- R86 -/
def opBne : BitVec 6 := 0x05#6
/-- R86 -/
def opAddi : BitVec 6 := 0x08#6
/-- R86 -/
def opSlti : BitVec 6 := 0x0A#6
/-- R86 -/
def opAndi : BitVec 6 := 0x0C#6
/-- R86 -/
def opOri : BitVec 6 := 0x0D#6
/-- R86: the parameter OP_BLT (decision D6) -/
def opBlt : BitVec 6 := 0x14#6
/-- R86: the parameter OP_BGE (decision D6) -/
def opBge : BitVec 6 := 0x15#6
/-- R86 -/
def opLw : BitVec 6 := 0x23#6
/-- R86 -/
def opLbu : BitVec 6 := 0x24#6
/-- R86 -/
def opSb : BitVec 6 := 0x28#6
/-- R86 -/
def opSw : BitVec 6 := 0x2B#6
/-- R87 -/
def fnSll : BitVec 6 := 0x00#6
/-- R87 -/
def fnSrl : BitVec 6 := 0x02#6
/-- R87 -/
def fnJr : BitVec 6 := 0x08#6
/-- R87, R88 -/
def fnSyscall : BitVec 6 := 0x0C#6
/-- R87: the parameter FUNCT_MUL (decision D5) -/
def fnMul : BitVec 6 := 0x18#6
/-- R87 -/
def fnAdd : BitVec 6 := 0x20#6
/-- R87 -/
def fnSub : BitVec 6 := 0x22#6
/-- R87 -/
def fnAnd : BitVec 6 := 0x24#6
/-- R87 -/
def fnOr : BitVec 6 := 0x25#6
/-- R87 -/
def fnNor : BitVec 6 := 0x27#6
/-- R87 -/
def fnSlt : BitVec 6 := 0x2A#6

/-! ## Decoding -/

/-- Why bytes are no instruction. Each is a word the dispatch table does not select (R90), or too few bytes for a word. -/
inductive DecodeReject where
  /-- the primary opcode is not in R86's table -/
  | unknownOpcode (op : BitVec 6)
  /-- the opcode is 0 and the function is not in R87's table (decision D8, log 10) -/
  | unknownFunct (funct : BitVec 6)
  /-- fewer than four bytes are left (R80) -/
  | truncated
  deriving DecidableEq, Repr

/-- Words with op 0: the funct field selects (R87, R124). Unused fields are not looked at (R89). -/
def decodeSpecial (w : Word) : Except DecodeReject Instr :=
  if functField w = fnAdd then .ok (.add (rdField w) (rsField w) (rtField w))
  else if functField w = fnSub then .ok (.sub (rdField w) (rsField w) (rtField w))
  else if functField w = fnAnd then .ok (.and (rdField w) (rsField w) (rtField w))
  else if functField w = fnOr then .ok (.or (rdField w) (rsField w) (rtField w))
  else if functField w = fnNor then .ok (.nor (rdField w) (rsField w) (rtField w))
  else if functField w = fnSlt then .ok (.slt (rdField w) (rsField w) (rtField w))
  else if functField w = fnMul then .ok (.mul (rdField w) (rsField w) (rtField w))
  else if functField w = fnSll then .ok (.sll (rdField w) (rtField w) (shamtField w))
  else if functField w = fnSrl then .ok (.srl (rdField w) (rtField w) (shamtField w))
  else if functField w = fnJr then .ok (.jr (rsField w))
  else if functField w = fnSyscall then .ok .syscall
  else .error (.unknownFunct (functField w))

/-- The decoder on one word (R84, R123, R124). -/
def decodeWord (w : Word) : Except DecodeReject Instr :=
  if opField w = opSpecial then decodeSpecial w
  else if opField w = opAddi then .ok (.addi (rtField w) (rsField w) (immField w))
  else if opField w = opSlti then .ok (.slti (rtField w) (rsField w) (immField w))
  else if opField w = opAndi then .ok (.andi (rtField w) (rsField w) (immField w))
  else if opField w = opOri then .ok (.ori (rtField w) (rsField w) (immField w))
  else if opField w = opBeq then .ok (.beq (rsField w) (rtField w) (immField w))
  else if opField w = opBne then .ok (.bne (rsField w) (rtField w) (immField w))
  else if opField w = opBlt then .ok (.blt (rsField w) (rtField w) (immField w))
  else if opField w = opBge then .ok (.bge (rsField w) (rtField w) (immField w))
  else if opField w = opLw then .ok (.lw (rtField w) (rsField w) (immField w))
  else if opField w = opLbu then .ok (.lbu (rtField w) (rsField w) (immField w))
  else if opField w = opSw then .ok (.sw (rtField w) (rsField w) (immField w))
  else if opField w = opSb then .ok (.sb (rtField w) (rsField w) (immField w))
  else if opField w = opJ then .ok (.j (targetField w))
  else if opField w = opJal then .ok (.jal (targetField w))
  else .error (.unknownOpcode (opField w))

/-- The word of four bytes, the first at the lowest address: little-endian (spec/20_memory.md R53). -/
def wordOfBytes (b0 b1 b2 b3 : Byte) : Word := b3 ++ b2 ++ b1 ++ b0

/-- The four bytes of a word, lowest address first (spec/20_memory.md R52). -/
def bytesOfWord (v : Word) : List Byte :=
  [v.extractLsb' 0 8, v.extractLsb' 8 8, v.extractLsb' 16 8, v.extractLsb' 24 8]

/-- The decoder on bytes: the instruction and the bytes after it, or why there is none. -/
def decode : List Byte → Except DecodeReject (Instr × List Byte)
  | b0 :: b1 :: b2 :: b3 :: rest => (decodeWord (wordOfBytes b0 b1 b2 b3)).map (fun i => (i, rest))
  | [] => .error .truncated
  | [_] => .error .truncated
  | [_, _] => .error .truncated
  | [_, _, _] => .error .truncated

/-- The 32-bit word whose low `nbits` bits are those of `w`, the bits above them zero. -/
def tableWord (nbits w : Nat) : Word := BitVec.ofNat 32 (w % 2 ^ nbits)

/-- The host's view of the decoder: the instruction read from a word numbered as spec/opcode_table.json numbers it. -/
def decodeTableWord (nbits w : Nat) : Option Instr :=
  match decode (bytesOfWord (tableWord nbits w)) with
  | .ok (i, _) => some i
  | .error _ => none

/-! ## Encoding -/

/-- A register's 5-bit field. -/
def regBits (r : Reg) : BitVec 5 := BitVec.ofFin r

/-- An R-type word (R81): op, rs, rt, rd, shamt, funct from bit 31 down. -/
def rType (rs rt rd : BitVec 5) (shamt : BitVec 5) (funct : BitVec 6) : Word :=
  opSpecial ++ rs ++ rt ++ rd ++ shamt ++ funct

/-- An I-type word (R82): op, rs, rt, imm from bit 31 down. -/
def iType (op : BitVec 6) (rs rt : Reg) (imm : Imm) : Word := op ++ regBits rs ++ regBits rt ++ imm

/-- A J-type word (R83): op, target from bit 31 down. -/
def jType (op : BitVec 6) (target : Target) : Word := op ++ target

/-- The three-register form: shamt is written 0 (R89). -/
def rType3 (rd rs rt : Reg) (funct : BitVec 6) : Word := rType (regBits rs) (regBits rt) (regBits rd) 0#5 funct

/-- The shift form: rs is written 0 (R89: "`sll`/`srl` ... leave `rs` zero"). -/
def rTypeShift (rd rt : Reg) (shamt : Nat) (funct : BitVec 6) : Word :=
  rType 0#5 (regBits rt) (regBits rd) (BitVec.ofNat 5 shamt) funct

/-- The words of a well-formed instruction: one word, unused fields zero (R88, R89, R104). -/
def encode : Instr → Word
  | .add rd rs rt => rType3 rd rs rt fnAdd
  | .sub rd rs rt => rType3 rd rs rt fnSub
  | .and rd rs rt => rType3 rd rs rt fnAnd
  | .or rd rs rt => rType3 rd rs rt fnOr
  | .nor rd rs rt => rType3 rd rs rt fnNor
  | .slt rd rs rt => rType3 rd rs rt fnSlt
  | .mul rd rs rt => rType3 rd rs rt fnMul
  | .sll rd rt shamt => rTypeShift rd rt shamt fnSll
  | .srl rd rt shamt => rTypeShift rd rt shamt fnSrl
  | .jr rs => rType (regBits rs) 0#5 0#5 0#5 fnJr
  | .syscall => rType 0#5 0#5 0#5 0#5 fnSyscall
  | .addi rt rs imm => iType opAddi rs rt imm
  | .slti rt rs imm => iType opSlti rs rt imm
  | .andi rt rs imm => iType opAndi rs rt imm
  | .ori rt rs imm => iType opOri rs rt imm
  | .beq rs rt imm => iType opBeq rs rt imm
  | .bne rs rt imm => iType opBne rs rt imm
  | .blt rs rt imm => iType opBlt rs rt imm
  | .bge rs rt imm => iType opBge rs rt imm
  | .lw rt rs imm => iType opLw rs rt imm
  | .lbu rt rs imm => iType opLbu rs rt imm
  | .sw rt rs imm => iType opSw rs rt imm
  | .sb rt rs imm => iType opSb rs rt imm
  | .j target => jType opJ target
  | .jal target => jType opJal target

/-! ## The opcode table as rows -/

/-- One row of spec/opcode_table.json: a word is the row's instruction when its bits under `mask` are `pattern`. -/
structure Row where
  mnemonic : String
  pattern : Word
  mask : Word
  deriving DecidableEq, Repr

/-- The word is an instruction of the row. -/
def Row.selects (r : Row) (w : Word) : Prop := w &&& r.mask = r.pattern

/-- The mask of a row with op 0: op and funct are fixed. -/
def specialMask : Word := 0xFC00003F#32

/-- The mask of a row selected by its opcode alone. -/
def opMask : Word := 0xFC000000#32

/-- The row of an instruction, from spec/opcode_table.json ("match", "mask"). -/
def Instr.row : Instr → Row
  | .add _ _ _ => ⟨"add", 0x00000020#32, specialMask⟩
  | .sub _ _ _ => ⟨"sub", 0x00000022#32, specialMask⟩
  | .and _ _ _ => ⟨"and", 0x00000024#32, specialMask⟩
  | .or _ _ _ => ⟨"or", 0x00000025#32, specialMask⟩
  | .nor _ _ _ => ⟨"nor", 0x00000027#32, specialMask⟩
  | .slt _ _ _ => ⟨"slt", 0x0000002A#32, specialMask⟩
  | .mul _ _ _ => ⟨"mul", 0x00000018#32, specialMask⟩
  | .sll _ _ _ => ⟨"sll", 0x00000000#32, specialMask⟩
  | .srl _ _ _ => ⟨"srl", 0x00000002#32, specialMask⟩
  | .jr _ => ⟨"jr", 0x00000008#32, specialMask⟩
  | .syscall => ⟨"syscall", 0x0000000C#32, specialMask⟩
  | .addi _ _ _ => ⟨"addi", 0x20000000#32, opMask⟩
  | .slti _ _ _ => ⟨"slti", 0x28000000#32, opMask⟩
  | .andi _ _ _ => ⟨"andi", 0x30000000#32, opMask⟩
  | .ori _ _ _ => ⟨"ori", 0x34000000#32, opMask⟩
  | .beq _ _ _ => ⟨"beq", 0x10000000#32, opMask⟩
  | .bne _ _ _ => ⟨"bne", 0x14000000#32, opMask⟩
  | .blt _ _ _ => ⟨"blt", 0x50000000#32, opMask⟩
  | .bge _ _ _ => ⟨"bge", 0x54000000#32, opMask⟩
  | .lw _ _ _ => ⟨"lw", 0x8C000000#32, opMask⟩
  | .lbu _ _ _ => ⟨"lbu", 0x90000000#32, opMask⟩
  | .sw _ _ _ => ⟨"sw", 0xAC000000#32, opMask⟩
  | .sb _ _ _ => ⟨"sb", 0xA0000000#32, opMask⟩
  | .j _ => ⟨"j", 0x08000000#32, opMask⟩
  | .jal _ => ⟨"jal", 0x0C000000#32, opMask⟩

/-- The 25 rows of spec/opcode_table.json, in its order. -/
def opcodeTable : List Row :=
  [⟨"add", 0x00000020#32, specialMask⟩,
   ⟨"sub", 0x00000022#32, specialMask⟩,
   ⟨"and", 0x00000024#32, specialMask⟩,
   ⟨"or", 0x00000025#32, specialMask⟩,
   ⟨"nor", 0x00000027#32, specialMask⟩] ++
  [⟨"slt", 0x0000002A#32, specialMask⟩,
   ⟨"mul", 0x00000018#32, specialMask⟩,
   ⟨"sll", 0x00000000#32, specialMask⟩,
   ⟨"srl", 0x00000002#32, specialMask⟩,
   ⟨"jr", 0x00000008#32, specialMask⟩] ++
  [⟨"syscall", 0x0000000C#32, specialMask⟩,
   ⟨"addi", 0x20000000#32, opMask⟩,
   ⟨"slti", 0x28000000#32, opMask⟩,
   ⟨"andi", 0x30000000#32, opMask⟩,
   ⟨"ori", 0x34000000#32, opMask⟩] ++
  [⟨"beq", 0x10000000#32, opMask⟩,
   ⟨"bne", 0x14000000#32, opMask⟩,
   ⟨"blt", 0x50000000#32, opMask⟩,
   ⟨"bge", 0x54000000#32, opMask⟩,
   ⟨"lw", 0x8C000000#32, opMask⟩] ++
  [⟨"lbu", 0x90000000#32, opMask⟩,
   ⟨"sw", 0xAC000000#32, opMask⟩,
   ⟨"sb", 0xA0000000#32, opMask⟩,
   ⟨"j", 0x08000000#32, opMask⟩,
   ⟨"jal", 0x0C000000#32, opMask⟩]

/-- The bits of an instruction's word that its decoding reads; the others are the ignored fields of R89. -/
def Instr.usedBits : Instr → Word
  | .add _ _ _ => 0xFFFFF83F#32
  | .sub _ _ _ => 0xFFFFF83F#32
  | .and _ _ _ => 0xFFFFF83F#32
  | .or _ _ _ => 0xFFFFF83F#32
  | .nor _ _ _ => 0xFFFFF83F#32
  | .slt _ _ _ => 0xFFFFF83F#32
  | .mul _ _ _ => 0xFFFFF83F#32
  | .sll _ _ _ => 0xFC1FFFFF#32
  | .srl _ _ _ => 0xFC1FFFFF#32
  | .jr _ => 0xFFE0003F#32
  | .syscall => 0xFC00003F#32
  | .addi _ _ _ => 0xFFFFFFFF#32
  | .slti _ _ _ => 0xFFFFFFFF#32
  | .andi _ _ _ => 0xFFFFFFFF#32
  | .ori _ _ _ => 0xFFFFFFFF#32
  | .beq _ _ _ => 0xFFFFFFFF#32
  | .bne _ _ _ => 0xFFFFFFFF#32
  | .blt _ _ _ => 0xFFFFFFFF#32
  | .bge _ _ _ => 0xFFFFFFFF#32
  | .lw _ _ _ => 0xFFFFFFFF#32
  | .lbu _ _ _ => 0xFFFFFFFF#32
  | .sw _ _ _ => 0xFFFFFFFF#32
  | .sb _ _ _ => 0xFFFFFFFF#32
  | .j _ => 0xFFFFFFFF#32
  | .jal _ => 0xFFFFFFFF#32

end Sys2Proof
end

