-- ==== Sys2Proof/Config.lean ====
section
/-! DEFINITION. The parameters of spec/00_scope.md R6 that are widths, bounds or launch choices.
The parameters that a test could show wrong stand where a repair can mend them: the opcode values in
Decode.lean, LINK_OFFSET, BRANCH_REL_BASE and SRL_KIND in Machine/Operands.lean, LOAD_BASE in Machine/Launch.lean. -/

namespace Sys2Proof.Config

/-- XLEN and AWIDTH (R6): the width of a register and of an address, in bits. -/
def xlen : Nat := 32

/-- NREGS (R6): the number of general registers. -/
def nregs : Nat := 32

/-- ILEN (R6), in bits: every instruction is one word (spec/30_encoding.md R80). -/
def ilen : Nat := 32

/-- The least MEM_SIZE (R6). -/
def minMemSize : Nat := 4

/-- The greatest MEM_SIZE (R6): "practically bounded at 2^32−1 bytes". -/
def maxMemSize : Nat := 4294967295

/-- MEM_SIZE (R6, spec/10_state.md R32): a natural number between the two bounds, fixed for a run. -/
structure MemSize where
  /-- the number of bytes, the address ceiling `max` -/
  val : Nat
  atLeast : minMemSize ≤ val
  atMost : val ≤ maxMemSize
  deriving DecidableEq, Repr

/-- The two values of SRL_KIND (R6, spec/41_alu.md R148). -/
inductive ShiftKind where
  /-- zeros enter at bit 31 -/
  | logical
  /-- copies of bit 31 enter at bit 31 -/
  | arithmetic
  deriving DecidableEq, Repr

/-- DESIGN CHOICE (log 3): the MEM_SIZE of `State.reset` is the greatest the spec admits. -/
def resetMemSize : MemSize := ⟨maxMemSize, by decide, by decide⟩

/-- DESIGN CHOICE (log 4): the ENTRY of `State.reset`, the entry point of an image whose `.text` comes first. -/
def resetEntry : Word := 0x00000000#32

/-- DESIGN CHOICE (log 1): the value of x[1] .. x[31] in `State.reset`. The spec calls each a draw (R37). -/
def resetReg : Word := 0x00000000#32

end Sys2Proof.Config
end

