-- ==== Sys2Proof/Machine/State.lean ====
section
/-! DEFINITION. The state of the core and of its host's side, as plain data: everything spec/10_state.md gives the
machine, and the state after reset. -/

namespace Sys2Proof.Machine

/-- The fatal errors, with the information each records (spec/60_exceptions.md R243). -/
inductive FatalError where
  /-- code 1: a fetch with a byte at or above MEM_SIZE; records the pc -/
  | fetchOutOfRange (pc : Word)
  /-- code 2: a store, or a byte of read_string, at or above MEM_SIZE; records the access address -/
  | writeOutOfRange (address : Word)
  /-- code 3: a syscall selector that is none of the eight; records x[2] -/
  | unsupportedSyscall (selector : Word)
  deriving DecidableEq, Repr

/-- The diagnostics, events for the host after which execution goes on (R242, R243). -/
inductive Diag where
  /-- code 4: a data read with a byte at or above MEM_SIZE; records the access address -/
  | readOutOfRange (address : Word)
  /-- code 5: a word the dispatch table does not select; records the pc -/
  | unimplementedOpcode (pc : Word)
  deriving DecidableEq, Repr

/-- The run state (spec/10_state.md R27). Halted and Aborted are terminal. -/
inductive RunState where
  | running
  | halted
  | aborted (e : FatalError)
  deriving DecidableEq, Repr

/-- What a read syscall asks the host for (spec/10_state.md R35, spec/44_syscall.md R212). -/
inductive InputRequest where
  /-- selector 5 -/
  | int
  /-- selector 12 -/
  | char
  /-- selector 8: a line of at most `limit` bytes -/
  | line (limit : Nat)
  deriving DecidableEq, Repr

/-- One answer of the host (R35). Every value is the host's own: a draw (decisions D31 to D33). -/
inductive HostAnswer where
  /-- to Int: any 32-bit value (R215) -/
  | int (v : Word)
  /-- to Char: a character byte (R219) -/
  | char (b : Byte)
  /-- to Char at end of input: any 32-bit value (R219) -/
  | endOfInput (v : Word)
  /-- to Line: the bytes of the line (R216) -/
  | line (bytes : List Byte)
  deriving DecidableEq, Repr

/-- Why no step exists from a state. -/
inductive Fault where
  /-- Raised by `step` alone, on a state that is Halted or Aborted: "no cycle runs from them" (R27, R120).
  Safe: the model stops where the core has stopped. -/
  | notRunning
  /-- Raised by a `syscall` with selector 5, 8 or 12 whose request the host has not answered: the core is stuck in its
  wait, "a step that is enabled only when the host has an answer" (R33, spec/44_syscall.md R212). No state changes; the
  step exists once `State.answer` has given an answer. Safe: the model stops where the core waits (log 6). -/
  | awaitingHost (k : InputRequest)
  deriving DecidableEq, Repr

/-- Why the model gives no meaning. -/
inductive Refusal where
  /-- Raised by an arm of `exec` whose instruction has no meaning yet; no arm raises it. Safe. -/
  | notModelled (mnemonic : String)
  /-- Raised by `State.launch` alone: "An image longer than MEM_SIZE has no launch: a model refuses it"
  (spec/70_reset_and_hazards.md R270). Safe. -/
  | imageTooLong
  deriving DecidableEq, Repr

/-- Memory as the listed bytes, addresses strictly rising; an unlisted address reads `Memory.unlisted`. -/
abbrev Memory := List Host.Cell

/-- What a byte that is not listed reads as. DESIGN CHOICE (log 2): 0; the spec calls such bytes draws (R37). -/
def Memory.unlisted : Byte := 0x00#8

/-- The canonical form: addresses strictly rise and no listed byte equals `Memory.unlisted`. -/
def Memory.wf : Memory → Bool
  | [] => true
  | [(_, v)] => decide (v ≠ Memory.unlisted)
  | (a, v) :: (a', v') :: rest =>
    decide (a < a') && decide (v ≠ Memory.unlisted) && Memory.wf ((a', v') :: rest)

/-- The machine: the core's own state (R20 to R33) and the host's side of its interface (R34, R35). -/
structure State where
  /-- the storage of x[0] .. x[31] (R20); `State.readReg` and `State.writeReg` are the only accessors -/
  regs : Vector Word 32
  /-- the program counter (R24) -/
  pc : Word
  /-- Running, Halted or Aborted(e) (R27) -/
  run : RunState
  /-- the exit code of selector 17, part of the end report (R28, spec/44_syscall.md R220) -/
  exitCode : Option Int
  /-- the input request the host holds and has not answered, if any (R33); set by `State.ask`, cleared by the step that
  takes the answer -/
  pending : Option InputRequest
  /-- MEM_SIZE (R32), fixed for a run -/
  memSize : Config.MemSize
  /-- the bytes of memory (R32) -/
  mem : Memory
  /-- host side: the answers not yet consumed, oldest first (R34) -/
  input : List HostAnswer
  /-- host side: the bytes of standard output, oldest first (R34) -/
  output : List Byte
  /-- host side: the diagnostics received, oldest first (R34) -/
  diags : List Diag
  deriving DecidableEq, Repr

/-- The machine after reset (R37), with the draws and launch arguments the log names (log 1, 2, 3, 4, 7):
registers 0, no image, ENTRY 0, the greatest MEM_SIZE, no answer given. Every other launch is `State.launch`. -/
def State.reset : State where
  regs := Vector.replicate 32 Config.resetReg
  pc := Config.resetEntry
  run := .running
  exitCode := none
  pending := none
  memSize := Config.resetMemSize
  mem := []
  input := []
  output := []
  diags := []

end Sys2Proof.Machine
end

