-- ==== Sys2Proof/Machine/Ops.lean ====
section
/-! DEFINITION. The shared operations: registers, memory bytes and the three access primitives, the ways an
instruction can end (advance, transfer, halt, abort), diagnostics and the host's channels. -/

namespace Sys2Proof.Machine

/-! ## Registers (spec/10_state.md R21, R22) -/

/-- R21: `x[i]`; x[0] always reads as zero. -/
def State.readReg (s : State) (r : Reg) : Word := if r = Reg.zero then 0x00000000#32 else s.regs[r]

/-- R22: `x[i] <- v`; a write to x[0] is discarded. -/
def State.writeReg (s : State) (r : Reg) (v : Word) : State :=
  { s with regs := if r = Reg.zero then s.regs else s.regs.set r v }

/-! ## Memory bytes -/

/-- The byte at an address (spec/10_state.md R32). -/
def Memory.read : Memory → Nat → Byte
  | [], _ => Memory.unlisted
  | (k, v) :: rest, a => if k = a then v else Memory.read rest a

/-- `MEM[a] := b`, keeping the canonical form: the unlisted value is never listed. -/
def Memory.write : Memory → Nat → Byte → Memory
  | [], a, b => if b = Memory.unlisted then [] else [(a, b)]
  | (k, v) :: rest, a, b =>
    if a < k then (if b = Memory.unlisted then (k, v) :: rest else (a, b) :: (k, v) :: rest)
    else if a = k then (if b = Memory.unlisted then rest else (a, b) :: rest)
    else (k, v) :: Memory.write rest a b

/-- Bytes written to rising addresses from `a` on. -/
def Memory.writeBytes : Memory → Nat → List Byte → Memory
  | m, _, [] => m
  | m, a, b :: bs => Memory.writeBytes (Memory.write m a b) (a + 1) bs

/-- The little-endian word at `a` (spec/20_memory.md R52, R53). -/
def Memory.readWord (m : Memory) (a : Nat) : Word :=
  wordOfBytes (m.read a) (m.read (a + 1)) (m.read (a + 2)) (m.read (a + 3))

/-! ## The access primitives (spec/20_memory.md) -/

/-- The two access widths, n in {1, 4} (R58). -/
inductive Width where
  | byte
  | word
  deriving DecidableEq, Repr

/-- n, the number of bytes of an access. -/
def Width.bytes : Width → Nat
  | .byte => 1
  | .word => 4

/-- R51: `InRange(a, n)`: u(a) + n ≤ MEM_SIZE, for the whole access (decision D13, log 17). -/
def State.inRange (s : State) (a : Word) (n : Nat) : Bool := decide (a.toNat + n ≤ s.memSize.val)

/-- The value of an in-range read: one byte zero-extended, or four bytes little-endian (R55). -/
def Memory.load (m : Memory) (n : Width) (a : Nat) : Word :=
  match n with
  | .byte => (m.read a).setWidth 32
  | .word => m.readWord a

/-- The bytes an access of width n stores: the low n bytes of v, least significant first (R56). -/
def Width.storeBytes (n : Width) (v : Word) : List Byte :=
  match n with
  | .byte => [v.extractLsb' 0 8]
  | .word => bytesOfWord v

/-- R242: `diag k(info)`: the event goes to the host, nothing else changes. -/
def State.diag (s : State) (d : Diag) : State := { s with diags := s.diags ++ [d] }

/-- R55: `MemRead(a, n)`: out of range it gives 0 and a diagnostic (soft-fail). -/
def State.memRead (s : State) (a : Word) (n : Width) : Word × State :=
  if s.inRange a n.bytes then (s.mem.load n a.toNat, s) else (0x00000000#32, s.diag (.readOutOfRange a))

/-- R56: `MemWrite(a, n, v)`: out of range it is a fatal error and no byte is written (hard-fail). -/
def State.memWrite (s : State) (a : Word) (n : Width) (v : Word) : Except FatalError State :=
  if s.inRange a n.bytes then .ok { s with mem := s.mem.writeBytes a.toNat (n.storeBytes v) }
  else .error (.writeOutOfRange a)

/-- R57: `Fetch(pc)`: a fetch that is out of range is fatal; there is no alignment check (decision D15, log 17). -/
def State.fetch (s : State) : Except FatalError Word :=
  if s.inRange s.pc 4 then .ok (s.mem.readWord s.pc.toNat) else .error (.fetchOutOfRange s.pc)

/-! ## How an instruction ends (spec/40_cycle.md R126 to R130) -/

/-- R126, R129: the default advance, pc + 4 modulo 2^32. -/
def State.advance (s : State) : State := { s with pc := s.pc + 0x00000004#32 }

/-- R127, R129: the explicit transfer, pc := t. -/
def State.jumpTo (s : State) (t : Word) : State := { s with pc := t }

/-- R128: `halt`: the default advance, then Halted; the exit code goes into the end report (R220; selector 10 has none). -/
def State.halt (s : State) (code : Option Int) : State :=
  { s with pc := s.pc + 0x00000004#32, run := .halted, exitCode := code }

/-- `abort e` (R130, spec/60_exceptions.md R241): the one way the core takes an error. The run state becomes
Aborted(e); the pc keeps the address of the aborting instruction and no register is written. There is no return from
it (R247). A next state, not a fault (log 5). -/
def State.abort (s : State) (e : FatalError) : State := { s with run := .aborted e }

/-- R125, R90: a word no row selects: a diagnostic, and the pc advances ("report and skip"). -/
def State.skipUnimplemented (s : State) : State := (s.diag (.unimplementedOpcode s.pc)).advance

/-- The numeric codes of R243's table. -/
def FatalError.code : FatalError → Nat
  | .fetchOutOfRange _ => 1
  | .writeOutOfRange _ => 2
  | .unsupportedSyscall _ => 3

/-- The numeric codes of R243's table. -/
def Diag.code : Diag → Nat
  | .readOutOfRange _ => 4
  | .unimplementedOpcode _ => 5

/-! ## The host's channels (spec/44_syscall.md R211, R212) -/

/-- R211: `HostOut(bytes)`. -/
def State.hostOut (s : State) (bytes : List Byte) : State := { s with output := s.output ++ bytes }

/-- The host's transaction `Answer(value)` (spec/10_state.md R35): the answer joins the input stream. -/
def State.answer (s : State) (a : HostAnswer) : State := { s with input := s.input ++ [a] }

/-- The value an answer gives to a request Int (R215). -/
def HostAnswer.asInt : HostAnswer → Option Word
  | .int v => some v
  | .char _ => none
  | .endOfInput _ => none
  | .line _ => none

/-- The value an answer gives to a request Char: a byte zero-extended, or at end of input any value (R219, decision D32). -/
def HostAnswer.asChar : HostAnswer → Option Word
  | .int _ => none
  | .char b => some (b.setWidth 32)
  | .endOfInput v => some v
  | .line _ => none

/-- The bytes an answer gives to a request Line(limit): at most `limit` of them (R216, decision D33). -/
def HostAnswer.asLine (limit : Nat) : HostAnswer → Option (List Byte)
  | .int _ => none
  | .char _ => none
  | .endOfInput _ => none
  | .line bytes => if bytes.length ≤ limit then some bytes else none

/-- R212: `HostIn(kind)` when the oldest answer is one to the request: its value, and the state after taking it.
None while the host has not answered (log 7: an answer that is none to the request stays in the stream). -/
def State.hostIn {α : Type} (s : State) (pick : HostAnswer → Option α) : Option (α × State) :=
  match s.input with
  | [] => none
  | a :: rest =>
    match pick a with
    | none => none
    | some v => some (v, { s with input := rest, pending := none })

/-- R212, R33: `HostIn(k)` and what is done with the answer. With no answer the step is not enabled: the core waits. -/
def State.readInput {α : Type} (s : State) (k : InputRequest) (pick : HostAnswer → Option α) (done : α → State → State) :
    Host.Outcome State Fault Refusal :=
  match s.hostIn pick with
  | none => .fault (.awaitingHost k)
  | some (v, t) => .next (done v t)

end Sys2Proof.Machine
end

