-- ==== Sys2Proof/Machine/Operands.lean ====
section
/-! DEFINITION. Every operand form of spec/30_encoding.md R85, and the arithmetic of addresses and shifts. -/

namespace Sys2Proof.Machine

/-- R9: `sext_32(imm)`: bit 15 is copied into bits 31..16. -/
def sext32 (imm : Imm) : Word := imm.signExtend 32

/-- R9: `zext_32` of a 16-bit field. -/
def zext32 (imm : Imm) : Word := imm.setWidth 32

/-- R85, R97: `zext_32(target)`, the byte address a jump goes to, unshifted (decision D22, log 13). -/
def jumpTarget (target : Target) : Word := target.setWidth 32

/-- The parameter BRANCH_REL_BASE (R6, decision D21, log 12). -/
def branchRelBase : Word := 0x00000004#32

/-- R170: `pc + 4 + (sext_32(imm) << 2)` modulo 2^32, with `pc` the branch's own address. -/
def branchTarget (pc : Word) (imm : Imm) : Word := pc + branchRelBase + (sext32 imm <<< 2)

/-- The parameter LINK_OFFSET (R6, decision D24, log 11). -/
def linkOffset : Word := 0x00000008#32

/-- R176: the link value `pc + 8`, with `pc` the `jal`'s own address. -/
def linkValue (pc : Word) : Word := pc + linkOffset

/-- R190: `ea = x[rs] + sext_32(imm)` modulo 2^32, for all four memory instructions (decision D23, log 14). -/
def State.effectiveAddress (s : State) (rs : Reg) (imm : Imm) : Word := s.readReg rs + sext32 imm

/-- R147: `(u(v) * 2^n)_32`. -/
def shiftLeft (v : Word) (n : Nat) : Word := BitVec.ofNat 32 (v.toNat * 2 ^ n)

/-- R148: a right shift by a constant, of either kind. -/
def shiftRight (kind : Config.ShiftKind) (v : Word) (n : Nat) : Word :=
  match kind with
  | .logical => BitVec.ofNat 32 (v.toNat / 2 ^ n)
  | .arithmetic => BitVec.ofInt 32 (v.toInt / 2 ^ n)

/-- The parameter SRL_KIND (R6, decision D11, log 16). -/
def srlKind : Config.ShiftKind := .logical

/-- R8: `s(v)`, the two's-complement reading (decision D3, log 15). -/
def signed (v : Word) : Int := v.toInt

/-- R8: `(n)_32`: the low 32 bits of an exact integer result (R153). -/
def narrow (n : Int) : Word := BitVec.ofInt 32 n

end Sys2Proof.Machine
end

