-- ==== Sys2Proof/Machine/Flags.lean ====
section
/-! DEFINITION. The core has no flags (spec/10_state.md R29): conditions are computed from two values inside the
instruction. This file holds every such condition. -/

namespace Sys2Proof.Machine

/-- The conditions of the four branches over two signed values (spec/42_branch_jump.md R170 to R174). -/
inductive Cond where
  | eq
  | ne
  | lt
  | ge
  deriving DecidableEq, Repr

/-- `cond(a, b)` of R170, with `a = s(x[rs])` and `b = s(x[rt])`. -/
def Cond.holds (c : Cond) (a b : Int) : Bool :=
  match c with
  | .eq => decide (a = b)
  | .ne => decide (a ≠ b)
  | .lt => decide (a < b)
  | .ge => decide (a ≥ b)

/-- The value `slt` and `slti` write: 1 when the first signed value is less, else 0 (spec/41_alu.md R145, R150). -/
def setLess (a b : Int) : Word := if a < b then 0x00000001#32 else 0x00000000#32

end Sys2Proof.Machine
end

