-- ==== Sys2Proof/Machine/Alu.lean ====
section
/-! DEFINITION. The ALU instructions (spec/41_alu.md R140 to R152). None touches memory, raises an error or writes a
flag; each leaves the pc at pc + 4. -/

namespace Sys2Proof.Machine

/-- The shared end of every ALU instruction and load: the result goes to its register and the pc advances (R126). -/
def writeBack (s : State) (r : Reg) (v : Word) : Host.Outcome State Fault Refusal :=
  .next ((s.writeReg r v).advance)

/-- R140: `x[rd] <- (s(x[rs]) + s(x[rt]))_32`. -/
def execAdd (rd rs rt : Reg) (s : State) : Host.Outcome State Fault Refusal :=
  writeBack s rd (narrow (signed (s.readReg rs) + signed (s.readReg rt)))

/-- R141: `x[rd] <- (s(x[rs]) − s(x[rt]))_32`. -/
def execSub (rd rs rt : Reg) (s : State) : Host.Outcome State Fault Refusal :=
  writeBack s rd (narrow (signed (s.readReg rs) - signed (s.readReg rt)))

/-- R142: `x[rd] <- x[rs] AND x[rt]`. -/
def execAnd (rd rs rt : Reg) (s : State) : Host.Outcome State Fault Refusal :=
  writeBack s rd (s.readReg rs &&& s.readReg rt)

/-- R143: `x[rd] <- x[rs] OR x[rt]`. -/
def execOr (rd rs rt : Reg) (s : State) : Host.Outcome State Fault Refusal :=
  writeBack s rd (s.readReg rs ||| s.readReg rt)

/-- R144: `x[rd] <- NOT (x[rs] OR x[rt])`. -/
def execNor (rd rs rt : Reg) (s : State) : Host.Outcome State Fault Refusal :=
  writeBack s rd (~~~(s.readReg rs ||| s.readReg rt))

/-- R145: `x[rd] <- if s(x[rs]) < s(x[rt]) then 1 else 0`. -/
def execSlt (rd rs rt : Reg) (s : State) : Host.Outcome State Fault Refusal :=
  writeBack s rd (setLess (signed (s.readReg rs)) (signed (s.readReg rt)))

/-- R146: `x[rd] <- (s(x[rs]) * s(x[rt]))_32`; the high half is lost (decision D10). -/
def execMul (rd rs rt : Reg) (s : State) : Host.Outcome State Fault Refusal :=
  writeBack s rd (narrow (signed (s.readReg rs) * signed (s.readReg rt)))

/-- R147: `x[rd] <- (u(x[rt]) * 2^u(shamt))_32`. -/
def execSll (rd rt : Reg) (shamt : Nat) (s : State) : Host.Outcome State Fault Refusal :=
  writeBack s rd (shiftLeft (s.readReg rt) shamt)

/-- R148: `x[rd] <- (floor(u(x[rt]) / 2^u(shamt)))_32`. -/
def execSrl (rd rt : Reg) (shamt : Nat) (s : State) : Host.Outcome State Fault Refusal :=
  writeBack s rd (shiftRight srlKind (s.readReg rt) shamt)

/-- R149: `x[rt] <- (s(x[rs]) + s(sext_32(imm)))_32`. -/
def execAddi (rt rs : Reg) (imm : Imm) (s : State) : Host.Outcome State Fault Refusal :=
  writeBack s rt (narrow (signed (s.readReg rs) + signed (sext32 imm)))

/-- R150: `x[rt] <- if s(x[rs]) < s(sext_32(imm)) then 1 else 0`. -/
def execSlti (rt rs : Reg) (imm : Imm) (s : State) : Host.Outcome State Fault Refusal :=
  writeBack s rt (setLess (signed (s.readReg rs)) (signed (sext32 imm)))

/-- R151: `x[rt] <- x[rs] AND zext_32(imm)`. -/
def execAndi (rt rs : Reg) (imm : Imm) (s : State) : Host.Outcome State Fault Refusal :=
  writeBack s rt (s.readReg rs &&& zext32 imm)

/-- R152: `x[rt] <- x[rs] OR zext_32(imm)`. -/
def execOri (rt rs : Reg) (imm : Imm) (s : State) : Host.Outcome State Fault Refusal :=
  writeBack s rt (s.readReg rs ||| zext32 imm)

end Sys2Proof.Machine
end

