-- ==== Sys2Proof/Machine/Branch.lean ====
section
/-! DEFINITION. The branches and jumps (spec/42_branch_jump.md R170 to R177). None writes memory or raises an error; a bad
target is found by the next fetch (R179). There is no delay slot (R180). -/

namespace Sys2Proof.Machine

/-- R170: the common branch semantics. -/
def branchIf (c : Cond) (rs rt : Reg) (imm : Imm) (s : State) : Host.Outcome State Fault Refusal :=
  if c.holds (signed (s.readReg rs)) (signed (s.readReg rt)) then .next (s.jumpTo (branchTarget s.pc imm))
  else .next s.advance

/-- R171: branch if equal. -/
def execBeq (rs rt : Reg) (imm : Imm) (s : State) : Host.Outcome State Fault Refusal := branchIf .eq rs rt imm s

/-- R172: branch if not equal. -/
def execBne (rs rt : Reg) (imm : Imm) (s : State) : Host.Outcome State Fault Refusal := branchIf .ne rs rt imm s

/-- R173: branch if signed less than. -/
def execBlt (rs rt : Reg) (imm : Imm) (s : State) : Host.Outcome State Fault Refusal := branchIf .lt rs rt imm s

/-- R174: branch if signed greater than or equal. -/
def execBge (rs rt : Reg) (imm : Imm) (s : State) : Host.Outcome State Fault Refusal := branchIf .ge rs rt imm s

/-- R175: `next_pc <- zext_32(target)`. -/
def execJ (target : Target) (s : State) : Host.Outcome State Fault Refusal := .next (s.jumpTo (jumpTarget target))

/-- R176: `x[31] <- pc + 8; next_pc <- zext_32(target)`. -/
def execJal (target : Target) (s : State) : Host.Outcome State Fault Refusal :=
  .next ((s.writeReg Reg.ra (linkValue s.pc)).jumpTo (jumpTarget target))

/-- R177: `next_pc <- x[rs]`, all 32 bits. -/
def execJr (rs : Reg) (s : State) : Host.Outcome State Fault Refusal := .next (s.jumpTo (s.readReg rs))

end Sys2Proof.Machine
end

