-- ==== Sys2Proof/Machine/LoadStore.lean ====
section
/-! DEFINITION. The loads and stores (spec/43_load_store.md R190 to R194). -/

namespace Sys2Proof.Machine

/-- R191, R192: `x[rt] <- MemRead(ea, n)`; out of range the register gets 0, the host a diagnostic, and the run goes on. -/
def loadTo (n : Width) (rt rs : Reg) (imm : Imm) (s : State) : Host.Outcome State Fault Refusal :=
  match s.memRead (s.effectiveAddress rs imm) n with
  | (v, t) => writeBack t rt v

/-- R193, R194: `MemWrite(ea, n, x[rt])`; out of range the run is Aborted and no byte is written. -/
def storeFrom (n : Width) (rt rs : Reg) (imm : Imm) (s : State) : Host.Outcome State Fault Refusal :=
  match s.memWrite (s.effectiveAddress rs imm) n (s.readReg rt) with
  | .ok t => .next t.advance
  | .error e => .next (s.abort e)

/-- R191: load word. -/
def execLw (rt rs : Reg) (imm : Imm) (s : State) : Host.Outcome State Fault Refusal := loadTo .word rt rs imm s

/-- R192: load byte unsigned. -/
def execLbu (rt rs : Reg) (imm : Imm) (s : State) : Host.Outcome State Fault Refusal := loadTo .byte rt rs imm s

/-- R193: store word. -/
def execSw (rt rs : Reg) (imm : Imm) (s : State) : Host.Outcome State Fault Refusal := storeFrom .word rt rs imm s

/-- R194: store byte. -/
def execSb (rt rs : Reg) (imm : Imm) (s : State) : Host.Outcome State Fault Refusal := storeFrom .byte rt rs imm s

end Sys2Proof.Machine
end

