-- ==== Sys2Proof/Machine/Syscall.lean ====
section
/-! DEFINITION. The `syscall` instruction (spec/44_syscall.md R210 to R222): eight selectors in x[2], any other aborts. -/

namespace Sys2Proof.Machine

/-! ## Decimal numerals (R213, decision D28, log 19) -/

/-- The ASCII digit of a number below 10. -/
def digitByte (n : Nat) : Byte := BitVec.ofNat 8 (48 + n)

/-- The ASCII digits of `n`, most significant first; `fuel` above `n` is always enough. -/
def decimalDigits : Nat → Nat → List Byte
  | 0, _ => []
  | fuel + 1, n => if n < 10 then [digitByte n] else decimalDigits fuel (n / 10) ++ [digitByte (n % 10)]

/-- R213: `decimal(n)`: a leading `-` for negative n, no leading zeros, no sign for positive n, no newline. -/
def decimal (n : Int) : List Byte :=
  if n < 0 then 0x2D#8 :: decimalDigits (n.natAbs + 1) n.natAbs else decimalDigits (n.natAbs + 1) n.natAbs

/-! ## Strings in memory -/

/-- R214's loop from address `a` while `left` bytes exist from `a` on: the bytes before the first zero byte, and
whether the string ran to the ceiling without one. -/
def Memory.stringAt (m : Memory) : Nat → Nat → List Byte × Bool
  | 0, _ => ([], true)
  | left + 1, a =>
    if m.read a = 0x00#8 then ([], false)
    else (m.read a :: (Memory.stringAt m left (a + 1)).1, (Memory.stringAt m left (a + 1)).2)

/-- The address whose read ends a string that ran to the ceiling: the first at or above both `a` and MEM_SIZE (R214). -/
def State.stringFaultAddress (s : State) (a : Word) : Word := BitVec.ofNat 32 (max a.toNat s.memSize.val)

/-- R216's writes, one byte each at rising addresses modulo 2^32: the state after them, and the error of the first
byte that is out of range; bytes written before it stay. -/
def State.storeString : List Byte → Word → State → State × Option FatalError
  | [], _, s => (s, none)
  | b :: bs, a, s =>
    match s.memWrite a .byte (b.setWidth 32) with
    | .ok t => State.storeString bs (a + 0x00000001#32) t
    | .error e => (s, some e)

/-! ## The selectors -/

/-- R213: selector 1, `print_int`. -/
def sysPrintInt (s : State) : State := (s.hostOut (decimal (signed (s.readReg Reg.a0)))).advance

/-- R214: selector 4, `print_string`; a string that runs to the ceiling ends there with a diagnostic (decision D30). -/
def sysPrintString (s : State) : State :=
  match s.mem.stringAt (s.memSize.val - (s.readReg Reg.a0).toNat) (s.readReg Reg.a0).toNat with
  | (bytes, false) => (s.hostOut bytes).advance
  | (bytes, true) => ((s.hostOut bytes).diag (.readOutOfRange (s.stringFaultAddress (s.readReg Reg.a0)))).advance

/-- R215: selector 5, `read_int`. -/
def sysReadInt (s : State) : Host.Outcome State Fault Refusal :=
  s.readInput .int HostAnswer.asInt fun v t => (t.writeReg Reg.v0 v).advance

/-- R219: selector 12, `read_char`. -/
def sysReadChar (s : State) : Host.Outcome State Fault Refusal :=
  s.readInput .char HostAnswer.asChar fun v t => (t.writeReg Reg.v0 v).advance

/-- R216: the length bound `L = s(x[5])`. -/
def State.lineBound (s : State) : Int := signed (s.readReg Reg.a1)

/-- R216: the limit `L − 1` of the request, for L ≥ 1. -/
def State.lineLimit (s : State) : Nat := (s.lineBound - 1).toNat

/-- R216: the end of `read_string`, once the host's line is there: the bytes and a zero terminator are written from x[4]
on, and a byte out of range aborts. -/
def State.fillBuffer (s : State) (bytes : List Byte) : State :=
  match State.storeString (bytes ++ [0x00#8]) (s.readReg Reg.a0) s with
  | (u, none) => u.advance
  | (u, some e) => u.abort e

/-- R216: selector 8, `read_string`; L ≤ 0 asks and writes nothing. -/
def sysReadString (s : State) : Host.Outcome State Fault Refusal :=
  if s.lineBound ≥ 1 then
    s.readInput (.line s.lineLimit) (HostAnswer.asLine s.lineLimit) fun bytes t => t.fillBuffer bytes
  else .next s.advance

/-- R217: selector 10, `exit`; no exit code is reported. -/
def sysExit (s : State) : State := s.halt none

/-- R218: selector 11, `print_char`: the low 8 bits of x[4]. -/
def sysPrintChar (s : State) : State := (s.hostOut [(s.readReg Reg.a0).extractLsb' 0 8]).advance

/-- R220: selector 17, `exit_with_code`: the code is s(x[4]). -/
def sysExitWithCode (s : State) : State := s.halt (some (signed (s.readReg Reg.a0)))

/-- R221: any other selector. -/
def sysUnsupported (s : State) : State := s.abort (.unsupportedSyscall (s.readReg Reg.v0))

/-- R210: the selector is the whole of x[2], unsigned. -/
def State.selector (s : State) : Nat := (s.readReg Reg.v0).toNat

/-- R222: the selectors that have a meaning. -/
def selectors : List Nat := [1, 4, 5, 8, 10, 11, 12, 17]

/-- R210: the dispatch on the selector. -/
def syscallResult (s : State) : Host.Outcome State Fault Refusal :=
  match s.selector with
  | 1 => .next (sysPrintInt s)
  | 4 => .next (sysPrintString s)
  | 5 => sysReadInt s
  | 8 => sysReadString s
  | 10 => .next (sysExit s)
  | 11 => .next (sysPrintChar s)
  | 12 => sysReadChar s
  | 17 => .next (sysExitWithCode s)
  | _ => .next (sysUnsupported s)

/-- R210: `syscall`. It changes no mode and takes no trap (R222). -/
def execSyscall (s : State) : Host.Outcome State Fault Refusal := syscallResult s

/-- The input request a `syscall` in this state makes of the host, if any (R212, R215, R216, R219). -/
def State.syscallRequest (s : State) : Option InputRequest :=
  match s.selector with
  | 5 => some .int
  | 8 => if s.lineBound ≥ 1 then some (.line s.lineLimit) else none
  | 12 => some .char
  | _ => none

end Sys2Proof.Machine
end

