-- ==== Sys2Proof/Machine/Step.lean ====
section
/-! DEFINITION. One step of the core (spec/40_cycle.md R120), and how the host places a word where the next step
fetches. -/

namespace Sys2Proof.Machine

/-- R122 to R125: decode and execute a fetched word. -/
def executeWord (w : Word) (s : State) : Host.Outcome State Fault Refusal :=
  match decodeWord w with
  | .ok i => exec i s
  | .error _ => .next s.skipUnimplemented

/-- R120, R121: fetch, decode, execute, when the core is Running; from Halted or Aborted no step exists. -/
def step (s : State) : Host.Outcome State Fault Refusal :=
  match s.run with
  | .running =>
    match s.fetch with
    | .ok w => executeWord w s
    | .error e => .next (s.abort e)
  | .halted => .fault .notRunning
  | .aborted _ => .fault .notRunning

/-- The address `withFetchWord` stores at: the pc where a word can be fetched there, else 0 (log 25). -/
def State.fetchAddress (s : State) : Word := if s.inRange s.pc 4 then s.pc else 0x00000000#32

/-- The state in which the next step fetches and runs the word: its bytes stand at the pc, the core is Running, and a
pc from which nothing can be fetched is moved to 0 (log 25). It stands for the host's `Load` (R270, log 4). -/
def State.withFetchWord (s : State) (nbits w : Nat) : State :=
  { s with
    pc := s.fetchAddress
    run := .running
    mem := s.mem.writeBytes s.fetchAddress.toNat (bytesOfWord (tableWord nbits w)) }

end Sys2Proof.Machine
end

