-- ==== Sys2Proof/Machine/Image.lean ====
section
/-! DEFINITION. The image contract of spec/30_encoding.md section 5: the pseudo-instructions, the fields the assembler
writes for labels, and the bytes and addresses of source lines. The assembler itself is out of scope (spec/00_scope.md R4). -/

namespace Sys2Proof.Machine

/-! ## Pseudo-instructions -/

/-- R98: `move rd, rs` is `add rd, rs, $zero`. -/
def asmMove (rd rs : Reg) : Instr := .add rd rs Reg.zero

/-- R99: `li rt, imm` is `addi rt, $zero, imm`. -/
def asmLi (rt : Reg) (imm : Imm) : Instr := .addi rt Reg.zero imm

/-- R100: `la rt, label` is `addi rt, $zero, address(label)`, the address cut to 16 bits. -/
def asmLa (rt : Reg) (address : Word) : Instr := .addi rt Reg.zero (address.extractLsb' 0 16)

/-! ## Label fields -/

/-- R96: the field of a branch at `b` to a label at `a`: `((A − (B + 4)) >> 2)[15:0]` (conflict C1, log 12). -/
def branchField (b a : Word) : Imm := ((a - (b + 0x00000004#32)) >>> 2).extractLsb' 0 16

/-- R97: the field of a jump to a label at `a`: `A[25:0]`, the byte address (conflict C2, log 13). -/
def jumpField (a : Word) : Target := a.extractLsb' 0 26

/-! ## Layout -/

/-- A source line, its operands resolved (R93 to R95). -/
inductive Line where
  /-- the `.data` header -/
  | dataHeader
  /-- the `.text` header -/
  | textHeader
  /-- `name:` -/
  | label (name : String)
  /-- an instruction or `syscall` line -/
  | instr (i : Instr)
  /-- `.word v1, v2, …` -/
  | word (values : List Word)
  /-- `.space n` -/
  | space (n : Nat)
  /-- `.asciiz "text"` -/
  | asciiz (text : List Byte)
  deriving DecidableEq, Repr

/-- R93: by how much a line advances the address counter. -/
def Line.size : Line → Nat
  | .dataHeader => 0
  | .textHeader => 0
  | .label _ => 0
  | .instr _ => 4
  | .word values => 4 * values.length
  | .space n => n
  | .asciiz text => text.length + 1

/-- R53, R94: the bytes of a line; those of `.space` have no content. -/
def Line.bytes : Line → List (Option Byte)
  | .dataHeader => []
  | .textHeader => []
  | .label _ => []
  | .instr i => (bytesOfWord (encode i)).map some
  | .word values => (values.flatMap bytesOfWord).map some
  | .space n => List.replicate n none
  | .asciiz text => (text ++ [0x00#8]).map some

/-- R93: the image: the lines' bytes in source order, no padding. -/
def imageOf (lines : List Line) : List (Option Byte) := lines.flatMap Line.bytes

/-- R93: the address counter after some lines; it starts at 0. -/
def counterAfter (lines : List Line) : Nat := (lines.map Line.size).sum

/-- R95: the address a label is bound to: the counter where its first definition stands (spec/93, U23: "first definition is
authoritative"). -/
def labelAddress (name : String) : List Line → Option Nat
  | [] => none
  | l :: ls => if l = .label name then some 0 else (labelAddress name ls).map (l.size + ·)

/-- R93: the entry point: the counter where `.text` begins. DESIGN CHOICE (log 32): of several `.text` headers the first
counts, and lines without one have no entry point; the spec says which for neither. -/
def entryPoint : List Line → Option Nat
  | [] => none
  | l :: ls => if l = .textHeader then some 0 else (entryPoint ls).map (l.size + ·)

end Sys2Proof.Machine
end

