-- ==== Sys2Proof/Machine/Launch.lean ====
section
/-! DEFINITION. The two ends of a run: the host's `Load(image, ENTRY)` (spec/70_reset_and_hazards.md R270) with every draw
of spec/10_state.md R37 as an argument, and the end report (R273). -/

namespace Sys2Proof.Machine

/-- The parameter LOAD_BASE (spec/00_scope.md R6, decision D18): the address of image byte 0. -/
def loadBase : Nat := 0

/-- The arguments of a launch: what the host chooses, and the values the spec calls draws. -/
structure Launch where
  /-- MEM_SIZE -/
  memSize : Config.MemSize
  /-- the image, in address order; `none` is a byte reserved by `.space`, which has no content (R94) -/
  image : List (Option Byte)
  /-- ENTRY, the address where `.text` begins -/
  entry : Word
  /-- REG_INIT: a draw for each register (the one for x[0] is not used) -/
  regDraws : Vector Word 32
  /-- MEM_INIT: draws for the bytes from address 0 on; bytes after the last read `Memory.unlisted` -/
  memDraws : List Byte
  /-- HOST_INPUT: the answers the host has ready -/
  answers : List HostAnswer
  deriving DecidableEq, Repr

/-- Bytes laid from address `a` on; a `none` leaves the byte as it is. -/
def Memory.lay : Memory → Nat → List (Option Byte) → Memory
  | m, _, [] => m
  | m, a, none :: bs => Memory.lay m (a + 1) bs
  | m, a, some b :: bs => Memory.lay (Memory.write m a b) (a + 1) bs

/-- R37: the memory of a launch: the draws, and over them the defined bytes of the image. -/
def Launch.memory (l : Launch) : Memory :=
  Memory.lay (Memory.lay [] 0 ((l.memDraws.take l.memSize.val).map some)) loadBase l.image

/-- R270: the state a launch makes. -/
def Launch.state (l : Launch) : State where
  regs := l.regDraws.set 0 0x00000000#32
  pc := l.entry
  run := .running
  exitCode := none
  pending := none
  memSize := l.memSize
  mem := l.memory
  input := l.answers
  output := []
  diags := []

/-- R270: `Load(image, ENTRY)` "requires len(image) <= MEM_SIZE"; a longer image has no launch and is refused. -/
def State.launch (l : Launch) : Host.Outcome State Fault Refusal :=
  if loadBase + l.image.length ≤ l.memSize.val then .next l.state else .refused .imageTooLong

/-- The end report (R273, spec/10_state.md R35). -/
inductive EndReport where
  /-- `End(Halted)` or `End(Halted, code)` -/
  | halted (code : Option Int)
  /-- `End(Aborted(e, info))` -/
  | aborted (e : FatalError)
  deriving DecidableEq, Repr

/-- R273: the report of a run that has ended; a run that is Running has none. -/
def State.endReport (s : State) : Option EndReport :=
  match s.run with
  | .running => none
  | .halted => some (.halted s.exitCode)
  | .aborted e => some (.aborted e)

/-- The source's haltFlag (spec/10_state.md R27). -/
def State.haltFlag (s : State) : Bool := decide (s.run = .halted)

end Sys2Proof.Machine
end

