-- ==== Sys2Proof/Machine/Transactions.lean ====
section
/-! DEFINITION. The host's transactions that are no step of the core (spec/10_state.md R35): `In(kind)` is `State.ask`,
beside `Answer(value)`, which is `State.answer` of Ops.lean. -/

namespace Sys2Proof.Machine

/-- R35, R212: `In(kind)`: the request a waiting core makes reaches the host, which holds it as the pending input (R33).
Where the core does not wait, nothing happens. It is no step: while the core waits, no state of its own changes (log 6). -/
def State.ask (s : State) : State :=
  match step s with
  | .fault (.awaitingHost k) => { s with pending := some k }
  | .fault .notRunning => s
  | .next _ => s
  | .refused _ => s

end Sys2Proof.Machine
end

