-- ==== Sys2Proof/Safety.lean ====
section
/-! DEFINITION. The terms claims are stated in: the invariant of the machine, what one state keeps of another, and which
instructions may do what. -/

namespace Sys2Proof.Machine

/-! ## The invariant -/

/-- The input request the core makes in this state: that of the `syscall` at the pc, if one stands there (R33, R212). -/
def State.request (s : State) : Option InputRequest :=
  match s.fetch with
  | .ok w =>
    match decodeWord w with
    | .ok i => if i = .syscall then s.syscallRequest else none
    | .error _ => none
  | .error _ => none

/-- The answers the host can give to a request (R215, R216, R219). -/
def Answers (k : InputRequest) (a : HostAnswer) : Prop :=
  match k with
  | .int => ∃ v, a = .int v
  | .char => (∃ b, a = .char b) ∨ (∃ v, a = .endOfInput v)
  | .line limit => ∃ bytes, a = .line bytes ∧ bytes.length ≤ limit

/-- The host has answered the request: the oldest answer not yet consumed is one to it (log 7). -/
def State.answered (s : State) (k : InputRequest) : Prop := ∃ a rest, s.input = a :: rest ∧ Answers k a

/-- What every step keeps. -/
structure State.Inv (s : State) : Prop where
  /-- memory is in canonical form, so equal memories are equal data -/
  memCanonical : s.mem.wf = true
  /-- no byte at or above MEM_SIZE exists (spec/20_memory.md R50) -/
  memBounded : ∀ c ∈ s.mem, c.1 < s.memSize.val
  /-- the storage of x[0] stays zero (spec/10_state.md R21, R22) -/
  zeroStored : s.regs[(0 : Reg)] = 0x00000000#32
  /-- an exit code is part of a Halted run's report only (R28) -/
  exitCodeHalted : s.exitCode ≠ none → s.run = .halted
  /-- a core whose request the host holds is Running, at the `syscall` that made it (R33, R253) -/
  pendingRequested : ∀ k, s.pending = some k → s.run = .running ∧ s.request = some k

/-! ## What a state keeps of another -/

/-- Every byte of memory reads as before. -/
def SameMemory (s t : State) : Prop := ∀ a, t.mem.read a = s.mem.read a

/-- Every general register reads as before. -/
def SameRegs (s t : State) : Prop := ∀ r, t.readReg r = s.readReg r

/-- At most register `d` is written, with `v`; for d = 0 the write is discarded and none is (R22). -/
def WritesReg (s t : State) (d : Reg) (v : Word) : Prop :=
  ∀ r, t.readReg r = if r = d ∧ d ≠ Reg.zero then v else s.readReg r

/-- The run state, the exit code, the pending request and MEM_SIZE are as before. -/
def SameRun (s t : State) : Prop :=
  t.run = s.run ∧ t.exitCode = s.exitCode ∧ t.pending = s.pending ∧ t.memSize = s.memSize

/-- The three host streams are as before. -/
def SameStreams (s t : State) : Prop := t.input = s.input ∧ t.output = s.output ∧ t.diags = s.diags

/-- `bytes` stand from address `a` on, and every other byte reads as before. -/
def StoresBytes (s t : State) (a : Nat) (bytes : List Byte) : Prop :=
  (∀ k (h : k < bytes.length), t.mem.read (a + k) = bytes[k]) ∧
  (∀ b, b < a ∨ a + bytes.length ≤ b → t.mem.read b = s.mem.read b)

/-! ## What an instruction may do -/

/-- Execution gives the next state `t` in which register `d` is written with `v`, the pc has advanced by 4 and nothing
else has changed: the shape of every ALU instruction. -/
def ComputesInto (i : Instr) (s : State) (d : Reg) (v : Word) : Prop :=
  ∃ t, exec i s = .next t ∧ WritesReg s t d v ∧ t.pc = s.pc + 0x00000004#32 ∧
    SameMemory s t ∧ SameRun s t ∧ SameStreams s t

/-- Execution gives the next state whose pc is `target` and in which nothing else has changed. -/
def TransfersTo (i : Instr) (s : State) (target : Word) : Prop :=
  ∃ t, exec i s = .next t ∧ t.pc = target ∧ SameRegs s t ∧ SameMemory s t ∧ SameRun s t ∧ SameStreams s t

/-- A load gives the next state in which register `d` is written with `v`, the diagnostics `ds` have gone to the host, the
pc has advanced by 4 and nothing else has changed. -/
def LoadsInto (i : Instr) (s : State) (d : Reg) (v : Word) (ds : List Diag) : Prop :=
  ∃ t, exec i s = .next t ∧ WritesReg s t d v ∧ t.pc = s.pc + 0x00000004#32 ∧
    SameMemory s t ∧ SameRun s t ∧ t.input = s.input ∧ t.output = s.output ∧ t.diags = s.diags ++ ds

/-- A store gives the next state in which `bytes` stand from address `a` on, the pc has advanced by 4 and nothing else has
changed. -/
def StoresAt (i : Instr) (s : State) (a : Nat) (bytes : List Byte) : Prop :=
  ∃ t, exec i s = .next t ∧ StoresBytes s t a bytes ∧ SameRegs s t ∧ t.pc = s.pc + 0x00000004#32 ∧
    SameRun s t ∧ SameStreams s t

/-- The run ends in Aborted(e) and nothing else has changed: the pc keeps its address (spec/40_cycle.md R130). -/
def AbortsWith (i : Instr) (s : State) (e : FatalError) : Prop :=
  ∃ t, exec i s = .next t ∧ t.run = .aborted e ∧ t.pc = s.pc ∧ SameRegs s t ∧ SameMemory s t ∧ SameStreams s t ∧
    t.exitCode = s.exitCode ∧ t.pending = s.pending ∧ t.memSize = s.memSize

/-- A `syscall` sends `bytes` and then the diagnostics `ds` to the host, the pc advances by 4 and nothing else changes. -/
def SyscallSends (s : State) (bytes : List Byte) (ds : List Diag) : Prop :=
  ∃ t, exec .syscall s = .next t ∧ t.output = s.output ++ bytes ∧ t.diags = s.diags ++ ds ∧ t.input = s.input ∧
    t.pc = s.pc + 0x00000004#32 ∧ SameRegs s t ∧ SameMemory s t ∧ SameRun s t

/-- A `syscall` takes the answer at the head of the input stream, leaves `rest` of it, writes `v` to x[2], the pc advances
by 4, no request is pending and nothing else changes. -/
def SyscallReads (s : State) (v : Word) (rest : List HostAnswer) : Prop :=
  ∃ t, exec .syscall s = .next t ∧ WritesReg s t Reg.v0 v ∧ t.input = rest ∧ t.pending = none ∧
    t.pc = s.pc + 0x00000004#32 ∧ SameMemory s t ∧ t.run = s.run ∧ t.exitCode = s.exitCode ∧ t.memSize = s.memSize ∧
    t.output = s.output ∧ t.diags = s.diags

/-- A `read_string` takes the line at the head of the input stream and leaves `rest` of it: the line and a zero byte stand
from x[4] on, every other byte and every register reads as before, the pc advances by 4, no request is pending and nothing
else changes. -/
def SyscallStoresLine (s : State) (bytes : List Byte) (rest : List HostAnswer) : Prop :=
  ∃ t, exec .syscall s = .next t ∧ StoresBytes s t (s.readReg Reg.a0).toNat (bytes ++ [0x00#8]) ∧ SameRegs s t ∧
    t.pc = s.pc + 0x00000004#32 ∧ t.input = rest ∧ t.pending = none ∧ t.run = s.run ∧ t.exitCode = s.exitCode ∧
    t.memSize = s.memSize ∧ t.output = s.output ∧ t.diags = s.diags

/-- A `read_string` takes the line at the head of the input stream, leaves `rest` of it, writes from x[4] on the bytes of the
line that lie below the ceiling, and aborts with the first address that does not exist; no request is pending and nothing
else changes. -/
def SyscallLineAborts (s : State) (bytes : List Byte) (rest : List HostAnswer) : Prop :=
  ∃ t, exec .syscall s = .next t ∧
    t.run = .aborted (.writeOutOfRange (if (s.readReg Reg.a0).toNat < s.memSize.val
      then BitVec.ofNat 32 s.memSize.val else s.readReg Reg.a0)) ∧
    StoresBytes s t (s.readReg Reg.a0).toNat (bytes.take (s.memSize.val - (s.readReg Reg.a0).toNat)) ∧
    SameRegs s t ∧ t.pc = s.pc ∧ t.input = rest ∧ t.pending = none ∧ t.exitCode = s.exitCode ∧
    t.memSize = s.memSize ∧ t.output = s.output ∧ t.diags = s.diags

/-- A `syscall` halts: the pc advances by 4, the run is Halted with the end report `code` and nothing else changes. -/
def SyscallHalts (s : State) (code : Option Int) : Prop :=
  ∃ t, exec .syscall s = .next t ∧ t.run = .halted ∧ t.endReport = some (.halted code) ∧
    t.pc = s.pc + 0x00000004#32 ∧ SameRegs s t ∧ SameMemory s t ∧ SameStreams s t ∧ t.pending = s.pending ∧
    t.memSize = s.memSize

/-! ## Encodings -/

/-- Every word with op 0 and this function decodes to the instruction its fields give, whatever its other fields. -/
def SelectsFunct (funct : BitVec 6) (fields : Word → Instr) : Prop :=
  ∀ w, opField w = 0x00#6 → functField w = funct → decodeWord w = .ok (fields w)

/-- Every word with this opcode decodes to the instruction its fields give. -/
def SelectsOp (op : BitVec 6) (fields : Word → Instr) : Prop := ∀ w, opField w = op → decodeWord w = .ok (fields w)

/-! ## Numerals -/

/-- The byte is an ASCII digit. -/
def isDigit (b : Byte) : Prop := 48 ≤ b.toNat ∧ b.toNat ≤ 57

/-- The number a run of ASCII digits writes in base ten. -/
def digitsValue (bs : List Byte) : Nat := bs.foldl (fun n b => 10 * n + (b.toNat - 48)) 0

/-! ## What every instruction may do -/

/-- R23: the register an instruction may write, if any, in a state (the selector of a `syscall` is in x[2]). -/
def destination (i : Instr) (s : State) : Option Reg :=
  match i with
  | .add rd _ _ => some rd
  | .sub rd _ _ => some rd
  | .and rd _ _ => some rd
  | .or rd _ _ => some rd
  | .nor rd _ _ => some rd
  | .slt rd _ _ => some rd
  | .mul rd _ _ => some rd
  | .sll rd _ _ => some rd
  | .srl rd _ _ => some rd
  | .jr _ => none
  | .syscall => if s.selector = 5 ∨ s.selector = 12 then some Reg.v0 else none
  | .addi rt _ _ => some rt
  | .slti rt _ _ => some rt
  | .andi rt _ _ => some rt
  | .ori rt _ _ => some rt
  | .beq _ _ _ => none
  | .bne _ _ _ => none
  | .blt _ _ _ => none
  | .bge _ _ _ => none
  | .lw rt _ _ => some rt
  | .lbu rt _ _ => some rt
  | .sw _ _ _ => none
  | .sb _ _ _ => none
  | .j _ => none
  | .jal _ => some Reg.ra

/-- R55, R56, R58: the bytes of memory an instruction may write in a state: those of `sw` and `sb`, and for
`read_string` the L bytes of its buffer. -/
def mayStore (i : Instr) (s : State) (a : Nat) : Prop :=
  match i with
  | .sw _ rs imm => (s.effectiveAddress rs imm).toNat ≤ a ∧ a < (s.effectiveAddress rs imm).toNat + 4
  | .sb _ rs imm => a = (s.effectiveAddress rs imm).toNat
  | .syscall =>
    s.selector = 8 ∧ (s.readReg Reg.a0).toNat ≤ a ∧ (a : Int) < (s.readReg Reg.a0).toNat + s.lineBound
  | .add _ _ _ => False
  | .sub _ _ _ => False
  | .and _ _ _ => False
  | .or _ _ _ => False
  | .nor _ _ _ => False
  | .slt _ _ _ => False
  | .mul _ _ _ => False
  | .sll _ _ _ => False
  | .srl _ _ _ => False
  | .jr _ => False
  | .addi _ _ _ => False
  | .slti _ _ _ => False
  | .andi _ _ _ => False
  | .ori _ _ _ => False
  | .beq _ _ _ => False
  | .bne _ _ _ => False
  | .blt _ _ _ => False
  | .bge _ _ _ => False
  | .lw _ _ _ => False
  | .lbu _ _ _ => False
  | .j _ => False
  | .jal _ => False

/-- R127: the instructions that may set the next pc explicitly. -/
def mayTransfer : Instr → Bool
  | .beq _ _ _ => true
  | .bne _ _ _ => true
  | .blt _ _ _ => true
  | .bge _ _ _ => true
  | .j _ => true
  | .jal _ => true
  | .jr _ => true
  | .add _ _ _ => false
  | .sub _ _ _ => false
  | .and _ _ _ => false
  | .or _ _ _ => false
  | .nor _ _ _ => false
  | .slt _ _ _ => false
  | .mul _ _ _ => false
  | .sll _ _ _ => false
  | .srl _ _ _ => false
  | .syscall => false
  | .addi _ _ _ => false
  | .slti _ _ _ => false
  | .andi _ _ _ => false
  | .ori _ _ _ => false
  | .lw _ _ _ => false
  | .lbu _ _ _ => false
  | .sw _ _ _ => false
  | .sb _ _ _ => false

/-- R243, R245: the fatal error an instruction can raise in a state, by its kind. -/
def mayAbort (i : Instr) (s : State) (e : FatalError) : Prop :=
  match e with
  | .fetchOutOfRange _ => False
  | .writeOutOfRange a =>
    (∃ rt rs imm, (i = .sw rt rs imm ∨ i = .sb rt rs imm) ∧ a = s.effectiveAddress rs imm) ∨
    (i = .syscall ∧ s.selector = 8)
  | .unsupportedSyscall v => i = .syscall ∧ v = s.readReg Reg.v0

end Sys2Proof.Machine
end

