-- ==== Sys2Proof/Certificates/Slice0/Obligations.lean ====
section
/-! DEFINITION. The statements for the provers. Each docstring names the rule of spec/ it formalises. A statement marked
"derived" rests on a decision or a derivation that the spec marks as its own, or on a log entry of this model. -/

open Sys2Proof Sys2Proof.Machine

/-! ## Reset and launch -/

/-- Derived (the reset values of log 1 to 4 and 7): the invariant holds of `State.reset`. -/
def Obligations.ResetMeetsInvariant : Prop := State.reset.Inv

/-- Derived from R37 and R270 (decisions D18 to D20, D41): a launch whose image fits gives every piece of state its
reset value, with every draw an argument; a longer image is refused. -/
def Obligations.LaunchSetsResetValues : Prop :=
  ∀ l : Launch,
    (l.image.length ≤ l.memSize.val →
      ∃ t, State.launch l = .next t ∧
        t.readReg Reg.zero = 0x00000000#32 ∧ (∀ r, r ≠ Reg.zero → t.readReg r = l.regDraws[r]) ∧
        t.pc = l.entry ∧ t.run = .running ∧ t.exitCode = none ∧ t.pending = none ∧ t.memSize = l.memSize ∧
        (∀ k b, l.image[k]? = some (some b) → t.mem.read k = b) ∧
        (∀ a b, a < l.memSize.val → l.image[a]?.join = none → l.memDraws[a]? = some b → t.mem.read a = b) ∧
        t.input = l.answers ∧ t.output = [] ∧ t.diags = [] ∧ t.Inv) ∧
    (l.memSize.val < l.image.length → State.launch l = .refused .imageTooLong)

/-! ## Registers -/

/-- R21, R22: x[0] reads as zero and a write to it changes no state; any other register reads the value last written. -/
def Obligations.ZeroRegisterIsHardWired : Prop :=
  ∀ (s : State) (r q : Reg) (v : Word),
    s.readReg Reg.zero = 0x00000000#32 ∧ s.writeReg Reg.zero v = s ∧
    (r ≠ Reg.zero → s.readReg r = s.regs[r]) ∧
    (r ≠ Reg.zero → (s.writeReg r v).readReg q = if q = r then v else s.readReg q)

/-- Derived from R23 (which the spec derives from the instruction rules): an instruction that gives a next state
leaves every general register but its destination as it was. -/
def Obligations.OnlyDestinationRegisterChanges : Prop :=
  ∀ (i : Instr) (s t : State), exec i s = .next t →
    ∀ r, destination i s ≠ some r → t.readReg r = s.readReg r

/-! ## ALU -/

/-- Derived from R140, R141, R146, R149 and R153 (wrapping is decision D9, the low half decision D10): the four
arithmetic instructions write the low 32 bits of the exact signed result and change nothing else. -/
def Obligations.SignedArithmeticWraps : Prop :=
  ∀ (rd rs rt : Reg) (imm : Imm) (s : State),
    ComputesInto (.add rd rs rt) s rd (BitVec.ofInt 32 ((s.readReg rs).toInt + (s.readReg rt).toInt)) ∧
    ComputesInto (.sub rd rs rt) s rd (BitVec.ofInt 32 ((s.readReg rs).toInt - (s.readReg rt).toInt)) ∧
    ComputesInto (.mul rd rs rt) s rd (BitVec.ofInt 32 ((s.readReg rs).toInt * (s.readReg rt).toInt)) ∧
    ComputesInto (.addi rt rs imm) s rt (BitVec.ofInt 32 ((s.readReg rs).toInt + (imm.signExtend 32).toInt))

/-- R142, R143, R144, R151, R152: the bitwise instructions, with their encodings. -/
def Obligations.BitwiseResults : Prop :=
  (∀ (rd rs rt : Reg) (imm : Imm) (s : State),
    ComputesInto (.and rd rs rt) s rd (s.readReg rs &&& s.readReg rt) ∧
    ComputesInto (.or rd rs rt) s rd (s.readReg rs ||| s.readReg rt) ∧
    ComputesInto (.nor rd rs rt) s rd (~~~(s.readReg rs ||| s.readReg rt)) ∧
    ComputesInto (.andi rt rs imm) s rt (s.readReg rs &&& imm.setWidth 32) ∧
    ComputesInto (.ori rt rs imm) s rt (s.readReg rs ||| imm.setWidth 32)) ∧
  SelectsFunct 0x24#6 (fun w => .and (rdField w) (rsField w) (rtField w)) ∧
  SelectsFunct 0x25#6 (fun w => .or (rdField w) (rsField w) (rtField w)) ∧
  SelectsFunct 0x27#6 (fun w => .nor (rdField w) (rsField w) (rtField w)) ∧
  SelectsOp 0x0C#6 (fun w => .andi (rtField w) (rsField w) (immField w)) ∧
  SelectsOp 0x0D#6 (fun w => .ori (rtField w) (rsField w) (immField w))

/-- R145: `slt` compares signed and writes 1 or 0, with its encoding. -/
def Obligations.SetLessThanResult : Prop :=
  (∀ (rd rs rt : Reg) (s : State),
    ComputesInto (.slt rd rs rt) s rd
      (if (s.readReg rs).toInt < (s.readReg rt).toInt then 0x00000001#32 else 0x00000000#32)) ∧
  SelectsFunct 0x2A#6 (fun w => .slt (rdField w) (rsField w) (rtField w))

/-- Derived from R150 (the sign extension is the spec's reading from general knowledge): `slti`, with its encoding. -/
def Obligations.SetLessThanImmediateResult : Prop :=
  (∀ (rt rs : Reg) (imm : Imm) (s : State),
    ComputesInto (.slti rt rs imm) s rt
      (if (s.readReg rs).toInt < (imm.signExtend 32).toInt then 0x00000001#32 else 0x00000000#32)) ∧
  SelectsOp 0x0A#6 (fun w => .slti (rtField w) (rsField w) (immField w))

/-- Derived from R147: `sll` multiplies the unsigned value by 2^shamt and keeps 32 bits, with its encoding. For a shamt of 32
or more, which no word holds, the same formula is this model's choice (log 23). -/
def Obligations.ShiftLeftResult : Prop :=
  (∀ (rd rt : Reg) (shamt : Nat) (s : State),
    ComputesInto (.sll rd rt shamt) s rd (BitVec.ofNat 32 ((s.readReg rt).toNat * 2 ^ shamt))) ∧
  SelectsFunct 0x00#6 (fun w => .sll (rdField w) (rtField w) (shamtField w))

/-- Derived from R148 (logical is decision D11): `srl` divides the unsigned value by 2^shamt, with its encoding. For a shamt
of 32 or more, which no word holds, the same formula is this model's choice (log 23). -/
def Obligations.ShiftRightResult : Prop :=
  (∀ (rd rt : Reg) (shamt : Nat) (s : State),
    ComputesInto (.srl rd rt shamt) s rd (BitVec.ofNat 32 ((s.readReg rt).toNat / 2 ^ shamt))) ∧
  SelectsFunct 0x02#6 (fun w => .srl (rdField w) (rtField w) (shamtField w))

/-- Derived from R153 (decisions D9, D10): the low 32 bits of a sum, difference or product do not depend on the reading as
signed or unsigned, so the arithmetic instructions are arithmetic modulo 2^32; and the shifts move bits (R147, R148; D11).
For a shamt of 32 or more, which no word holds, the shifts' value is this model's choice (log 23). -/
def Obligations.ArithmeticIgnoresSignedness : Prop :=
  ∀ (rd rs rt : Reg) (imm : Imm) (shamt : Nat) (s : State),
    ComputesInto (.add rd rs rt) s rd (BitVec.ofNat 32 ((s.readReg rs).toNat + (s.readReg rt).toNat)) ∧
    ComputesInto (.sub rd rs rt) s rd (s.readReg rs - s.readReg rt) ∧
    ComputesInto (.mul rd rs rt) s rd (BitVec.ofNat 32 ((s.readReg rs).toNat * (s.readReg rt).toNat)) ∧
    ComputesInto (.addi rt rs imm) s rt (s.readReg rs + imm.signExtend 32) ∧
    ComputesInto (.sll rd rt shamt) s rd (s.readReg rt <<< shamt) ∧
    ComputesInto (.srl rd rt shamt) s rd (s.readReg rt >>> shamt)

/-! ## Branches and jumps -/

/-- Derived from R170, R171, R172 (the wrap modulo 2^32 is decision D17): `beq` and `bne` go to
pc + 4 + (sext(imm) << 2) when the signed values are equal or differ, else to pc + 4, and change nothing but the pc; with
their encodings. -/
def Obligations.EqualityBranches : Prop :=
  (∀ (rs rt : Reg) (imm : Imm) (s : State),
    TransfersTo (.beq rs rt imm) s
      (if (s.readReg rs).toInt = (s.readReg rt).toInt then s.pc + 0x00000004#32 + (imm.signExtend 32 <<< 2)
       else s.pc + 0x00000004#32) ∧
    TransfersTo (.bne rs rt imm) s
      (if (s.readReg rs).toInt ≠ (s.readReg rt).toInt then s.pc + 0x00000004#32 + (imm.signExtend 32 <<< 2)
       else s.pc + 0x00000004#32)) ∧
  SelectsOp 0x04#6 (fun w => .beq (rsField w) (rtField w) (immField w)) ∧
  SelectsOp 0x05#6 (fun w => .bne (rsField w) (rtField w) (immField w))

/-- Derived from R173, R174 (the opcodes are decision D6): `blt` and `bge` compare signed. -/
def Obligations.OrderBranches : Prop :=
  (∀ (rs rt : Reg) (imm : Imm) (s : State),
    TransfersTo (.blt rs rt imm) s
      (if (s.readReg rs).toInt < (s.readReg rt).toInt then s.pc + 0x00000004#32 + (imm.signExtend 32 <<< 2)
       else s.pc + 0x00000004#32) ∧
    TransfersTo (.bge rs rt imm) s
      (if (s.readReg rs).toInt ≥ (s.readReg rt).toInt then s.pc + 0x00000004#32 + (imm.signExtend 32 <<< 2)
       else s.pc + 0x00000004#32)) ∧
  SelectsOp 0x14#6 (fun w => .blt (rsField w) (rtField w) (immField w)) ∧
  SelectsOp 0x15#6 (fun w => .bge (rsField w) (rtField w) (immField w))

/-- Derived from R178, R96 (conflict C1, decision D21): a taken branch whose field the assembler wrote for a label at `a`,
a multiple of 4 away within the signed 16-bit range of words, goes to `a`. -/
def Obligations.BranchesReachTheirLabel : Prop :=
  ∀ (rs rt : Reg) (a : Word) (s : State),
    (a - (s.pc + 0x00000004#32)).toInt % 4 = 0 →
    -131072 ≤ (a - (s.pc + 0x00000004#32)).toInt → (a - (s.pc + 0x00000004#32)).toInt ≤ 131068 →
    (s.readReg rs = s.readReg rt → TransfersTo (.beq rs rt (branchField s.pc a)) s a) ∧
    (s.readReg rs ≠ s.readReg rt → TransfersTo (.bne rs rt (branchField s.pc a)) s a) ∧
    ((s.readReg rs).toInt < (s.readReg rt).toInt → TransfersTo (.blt rs rt (branchField s.pc a)) s a) ∧
    ((s.readReg rs).toInt ≥ (s.readReg rt).toInt → TransfersTo (.bge rs rt (branchField s.pc a)) s a)

/-- R177: `jr` goes to the content of x[rs], all 32 bits, with its encoding. -/
def Obligations.JumpRegisterResult : Prop :=
  (∀ (rs : Reg) (s : State), TransfersTo (.jr rs) s (s.readReg rs)) ∧
  SelectsFunct 0x08#6 (fun w => .jr (rsField w))

/-- Derived from R175, R176, R97 (conflicts C2 and C6, decisions D22 and D24): `j` and `jal` go to the field's value
unshifted, so every address below 2^26 is reached by the field the assembler writes for it; `jal` writes pc + 8 to x[31]
and no other register. -/
def Obligations.JumpsReachTheirTarget : Prop :=
  ∀ (target : Target) (s : State),
    TransfersTo (.j target) s (target.setWidth 32) ∧
    (∃ t, exec (.jal target) s = .next t ∧ t.pc = target.setWidth 32 ∧ WritesReg s t Reg.ra (s.pc + 0x00000008#32) ∧
      SameMemory s t ∧ SameRun s t ∧ SameStreams s t) ∧
    (∀ a : Word, a.toNat < 67108864 → (jumpField a).setWidth 32 = a)

/-- Derived from R176, R177, R274 (decision D24): a `jr $ra` that runs with the link a `jal` wrote resumes at the `jal`'s
address plus 8, and the call leaves no trace but x[31]. -/
def Obligations.ReturnSkipsTheWordAfterTheCall : Prop :=
  ∀ (target : Target) (s : State),
    ∃ t u, exec (.jal target) s = .next t ∧ exec (.jr Reg.ra) t = .next u ∧ u.pc = s.pc + 0x00000008#32 ∧
      (∀ r, r ≠ Reg.ra → u.readReg r = s.readReg r) ∧ SameMemory s u ∧ SameRun s u ∧ SameStreams s u

/-! ## Loads and stores -/

/-- Derived from R191 (decisions D13, D14): `lw` reads four bytes little-endian at x[rs] + sext(imm); with any of them out
of range it writes 0, sends one diagnostic with the address and goes on; with its encoding. -/
def Obligations.LoadWordResult : Prop :=
  (∀ (rt rs : Reg) (imm : Imm) (s : State),
    ((s.readReg rs + imm.signExtend 32).toNat + 4 ≤ s.memSize.val →
      LoadsInto (.lw rt rs imm) s rt
        (s.mem.read ((s.readReg rs + imm.signExtend 32).toNat + 3) ++
         s.mem.read ((s.readReg rs + imm.signExtend 32).toNat + 2) ++
         s.mem.read ((s.readReg rs + imm.signExtend 32).toNat + 1) ++
         s.mem.read (s.readReg rs + imm.signExtend 32).toNat) []) ∧
    (s.memSize.val < (s.readReg rs + imm.signExtend 32).toNat + 4 →
      LoadsInto (.lw rt rs imm) s rt 0x00000000#32 [.readOutOfRange (s.readReg rs + imm.signExtend 32)])) ∧
  SelectsOp 0x23#6 (fun w => .lw (rtField w) (rsField w) (immField w))

/-- R192: `lbu` reads one byte, zero-extended; out of range it writes 0, sends a diagnostic and goes on; with its
encoding. -/
def Obligations.LoadByteUnsignedResult : Prop :=
  (∀ (rt rs : Reg) (imm : Imm) (s : State),
    ((s.readReg rs + imm.signExtend 32).toNat < s.memSize.val →
      LoadsInto (.lbu rt rs imm) s rt ((s.mem.read (s.readReg rs + imm.signExtend 32).toNat).setWidth 32) []) ∧
    (s.memSize.val ≤ (s.readReg rs + imm.signExtend 32).toNat →
      LoadsInto (.lbu rt rs imm) s rt 0x00000000#32 [.readOutOfRange (s.readReg rs + imm.signExtend 32)])) ∧
  SelectsOp 0x24#6 (fun w => .lbu (rtField w) (rsField w) (immField w))

/-- Derived from R193, R194 (decisions D13, D23): in range, `sw` writes the four bytes of x[rt] little-endian and `sb` its
low byte, at `State.effectiveAddress`; every other byte reads as before and nothing else but the pc changes. -/
def Obligations.StoresInRange : Prop :=
  ∀ (rt rs : Reg) (imm : Imm) (s : State), s.mem.wf = true →
    ((s.effectiveAddress rs imm).toNat + 4 ≤ s.memSize.val →
      StoresAt (.sw rt rs imm) s (s.effectiveAddress rs imm).toNat
        [(s.readReg rt).extractLsb' 0 8, (s.readReg rt).extractLsb' 8 8,
         (s.readReg rt).extractLsb' 16 8, (s.readReg rt).extractLsb' 24 8]) ∧
    ((s.effectiveAddress rs imm).toNat < s.memSize.val →
      StoresAt (.sb rt rs imm) s (s.effectiveAddress rs imm).toNat [(s.readReg rt).extractLsb' 0 8]) ∧
    s.effectiveAddress rs imm = s.readReg rs + imm.signExtend 32

/-- Derived from R56, R193, R194, R130 (decisions D13, D14, D25): out of range, a store aborts with WriteOutOfRange of its
address, writes no byte, and leaves the pc at the store. -/
def Obligations.StoresOutOfRangeAbort : Prop :=
  ∀ (rt rs : Reg) (imm : Imm) (s : State),
    (s.memSize.val < (s.effectiveAddress rs imm).toNat + 4 →
      AbortsWith (.sw rt rs imm) s (.writeOutOfRange (s.effectiveAddress rs imm))) ∧
    (s.memSize.val ≤ (s.effectiveAddress rs imm).toNat →
      AbortsWith (.sb rt rs imm) s (.writeOutOfRange (s.effectiveAddress rs imm)))

/-- Derived from R54, R195 (which the spec derives): after `sw` of v at an address, `lw` there reads v, and `lbu` at the
address plus k reads byte k of v, through any base register and displacement that give the address. -/
def Obligations.LoadsSeeAWordStore : Prop :=
  ∀ (rt rs : Reg) (imm : Imm) (s : State), s.mem.wf = true →
    (s.effectiveAddress rs imm).toNat + 4 ≤ s.memSize.val →
    ∃ t, exec (.sw rt rs imm) s = .next t ∧
      (∀ (d b : Reg) (disp : Imm), t.effectiveAddress b disp = s.effectiveAddress rs imm →
        LoadsInto (.lw d b disp) t d (s.readReg rt) []) ∧
      (∀ (k : Nat) (d b : Reg) (disp : Imm), k < 4 →
        t.effectiveAddress b disp = s.effectiveAddress rs imm + BitVec.ofNat 32 k →
        LoadsInto (.lbu d b disp) t d (((s.readReg rt).extractLsb' (8 * k) 8).setWidth 32) [])

/-- Derived from R54 (which the spec derives): after `sb` at byte k of a word, `lw` of the word reads the word there
before with byte k replaced and its other bytes unchanged. -/
def Obligations.WordLoadSeesAByteStore : Prop :=
  ∀ (k : Nat) (a : Word) (rt rs : Reg) (imm : Imm) (s : State), s.mem.wf = true → k < 4 →
    a.toNat + 4 ≤ s.memSize.val → s.effectiveAddress rs imm = a + BitVec.ofNat 32 k →
    ∃ t, exec (.sb rt rs imm) s = .next t ∧
      ∀ (d b : Reg) (disp : Imm), t.effectiveAddress b disp = a →
        ∃ v, LoadsInto (.lw d b disp) t d v [] ∧
          ∀ n, n < 4 → v.extractLsb' (8 * n) 8 =
            if n = k then (s.readReg rt).extractLsb' 0 8 else (s.mem.readWord a.toNat).extractLsb' (8 * n) 8

/-- Derived from R66, R276 (decision D38): a word stored where the pc goes next is the word the very next step executes. -/
def Obligations.NextFetchSeesAStore : Prop :=
  ∀ (rt rs : Reg) (imm : Imm) (s : State), s.mem.wf = true → s.run = .running →
    s.effectiveAddress rs imm = s.pc + 0x00000004#32 → (s.effectiveAddress rs imm).toNat + 4 ≤ s.memSize.val →
    ∃ t, exec (.sw rt rs imm) s = .next t ∧ t.fetch = .ok (s.readReg rt) ∧ step t = executeWord (s.readReg rt) t

/-! ## Syscalls -/

/-- Derived from R213 (decision D28): selector 1 sends the numeral of s(x[4]) and changes nothing else but the pc. -/
def Obligations.PrintIntSendsTheNumeral : Prop :=
  ∀ s : State, s.readReg Reg.v0 = 0x00000001#32 → SyscallSends s (decimal (s.readReg Reg.a0).toInt) []

/-- Derived from R213 (decision D28): the numeral is a `-` for negative n alone, then ASCII digits with no leading zero,
and its value is n. -/
def Obligations.DecimalWritesTheInteger : Prop :=
  ∀ n : Int, ∃ ds : List Byte,
    decimal n = (if n < 0 then [0x2D#8] else []) ++ ds ∧ (∀ b ∈ ds, isDigit b) ∧ digitsValue ds = n.natAbs ∧
    ds ≠ [] ∧ (ds.head? = some 0x30#8 → ds = [0x30#8])

/-- Derived from R214 (decision D30): selector 4 sends the bytes from address x[4] up to the first zero byte, which is not
sent, and changes nothing else but the pc. -/
def Obligations.PrintStringSendsTheString : Prop :=
  ∀ (s : State) (n : Nat), s.readReg Reg.v0 = 0x00000004#32 → (s.readReg Reg.a0).toNat + n < s.memSize.val →
    (∀ k, k < n → s.mem.read ((s.readReg Reg.a0).toNat + k) ≠ 0x00#8) →
    s.mem.read ((s.readReg Reg.a0).toNat + n) = 0x00#8 →
    SyscallSends s ((List.range n).map fun k => s.mem.read ((s.readReg Reg.a0).toNat + k)) []

/-- Derived from R214 (decision D30): with no zero byte between x[4] and the ceiling, selector 4 sends every byte up to the
ceiling, then one diagnostic with the first address that does not exist, and the run goes on. -/
def Obligations.PrintStringStopsAtTheCeiling : Prop :=
  ∀ s : State, s.readReg Reg.v0 = 0x00000004#32 →
    (∀ a, (s.readReg Reg.a0).toNat ≤ a → a < s.memSize.val → s.mem.read a ≠ 0x00#8) →
    SyscallSends s
      ((List.range (s.memSize.val - (s.readReg Reg.a0).toNat)).map fun k => s.mem.read ((s.readReg Reg.a0).toNat + k))
      [.readOutOfRange (if (s.readReg Reg.a0).toNat < s.memSize.val then BitVec.ofNat 32 s.memSize.val
        else s.readReg Reg.a0)]

/-- Derived from R218 (decision D29): selector 11 sends the low 8 bits of x[4]. -/
def Obligations.PrintCharSendsTheLowByte : Prop :=
  ∀ s : State, s.readReg Reg.v0 = 0x0000000B#32 → SyscallSends s [(s.readReg Reg.a0).extractLsb' 0 8] []

/-- Derived from R215, R219 (decisions D31, D32; the input stream is log 7): selectors 5 and 12 take the host's answer and
write it to x[2], whatever value the host gives. -/
def Obligations.ReadIntAndCharTakeTheAnswer : Prop :=
  ∀ (s : State) (v : Word) (b : Byte) (rest : List HostAnswer),
    (s.readReg Reg.v0 = 0x00000005#32 → s.input = .int v :: rest → SyscallReads s v rest) ∧
    (s.readReg Reg.v0 = 0x0000000C#32 → s.input = .char b :: rest → SyscallReads s (b.setWidth 32) rest) ∧
    (s.readReg Reg.v0 = 0x0000000C#32 → s.input = .endOfInput v :: rest → SyscallReads s v rest)

/-- Derived from R216 (decision D33): selector 8 writes the host's line of at most L − 1 bytes and a zero byte from x[4] on,
when they fit; no register and no other byte changes. -/
def Obligations.ReadStringFillsTheBuffer : Prop :=
  ∀ (s : State) (bytes : List Byte) (rest : List HostAnswer), s.mem.wf = true →
    s.readReg Reg.v0 = 0x00000008#32 → s.input = .line bytes :: rest →
    (bytes.length : Int) ≤ (s.readReg Reg.a1).toInt - 1 →
    (s.readReg Reg.a0).toNat + bytes.length + 1 ≤ s.memSize.val → SyscallStoresLine s bytes rest

/-- Derived from R216, R130 (decisions D25, D33; log 22): when a byte of the line or its zero byte is out of range,
selector 8 aborts with the first such address; the bytes before it are written and stay, and the pc and the registers are
as before. -/
def Obligations.ReadStringAbortsAtTheCeiling : Prop :=
  ∀ (s : State) (bytes : List Byte) (rest : List HostAnswer), s.mem.wf = true →
    s.readReg Reg.v0 = 0x00000008#32 → s.input = .line bytes :: rest →
    (bytes.length : Int) ≤ (s.readReg Reg.a1).toInt - 1 →
    s.memSize.val < (s.readReg Reg.a0).toNat + bytes.length + 1 → SyscallLineAborts s bytes rest

/-- Derived from R216 (decision D33): with L ≤ 0 selector 8 asks nothing and writes nothing. -/
def Obligations.ReadStringOfNoLengthDoesNothing : Prop :=
  ∀ s : State, s.readReg Reg.v0 = 0x00000008#32 → (s.readReg Reg.a1).toInt ≤ 0 →
    TransfersTo .syscall s (s.pc + 0x00000004#32)

/-- Derived from R217, R220, R128, R273 (the exit codes are decision D34): selectors 10 and 17 halt at pc + 4; 10 reports no
code, 17 reports s(x[4]). -/
def Obligations.HaltingSelectors : Prop :=
  ∀ s : State,
    (s.readReg Reg.v0 = 0x0000000A#32 → SyscallHalts s none) ∧
    (s.readReg Reg.v0 = 0x00000011#32 → SyscallHalts s (some (s.readReg Reg.a0).toInt))

/-- R221: any other selector aborts with UnsupportedSyscall of x[2], and the pc stays at the `syscall`. -/
def Obligations.UnsupportedSelectorAborts : Prop :=
  ∀ s : State, (s.readReg Reg.v0).toNat ∉ [1, 4, 5, 8, 10, 11, 12, 17] →
    AbortsWith .syscall s (.unsupportedSyscall (s.readReg Reg.v0))

/-- Derived from R33, R212 and R253, with the requests of R215, R216 and R219 (decision D33): while the host has not answered,
a read syscall has no step: the core is stuck in its wait, Running at the `syscall`. So it waits on an empty input stream,
on an oldest answer of another kind and on a line longer than its limit (log 7). `In(kind)` hands the request to the host,
which is the pending input, and changes nothing else (log 6), and the core still waits. -/
def Obligations.ReadWaitsForTheHost : Prop :=
  ∀ (s : State) (k : InputRequest),
    (s.readReg Reg.v0 = 0x00000005#32 ∧ k = .int) ∨ (s.readReg Reg.v0 = 0x0000000C#32 ∧ k = .char) ∨
      (s.readReg Reg.v0 = 0x00000008#32 ∧ 1 ≤ (s.readReg Reg.a1).toInt ∧
        k = .line ((s.readReg Reg.a1).toInt - 1).toNat) →
    ¬ s.answered k →
    exec .syscall s = .fault (.awaitingHost k) ∧
    ∀ w, s.run = .running → s.fetch = .ok w → decodeWord w = .ok .syscall →
      step s = .fault (.awaitingHost k) ∧ s.ask = { s with pending := some k } ∧
      step s.ask = .fault (.awaitingHost k)

/-- Derived from R253 and R212, with the effects of R215, R216 and R219 (R126 and decisions D31 to D33; log 6, log 7): a core
that meets the invariant and whose request the host holds, with no answer given, has no step; with any answer it runs the
`syscall` at its pc, and an answer to the request completes it as its selector says, for each of the three requests. -/
def Obligations.TheAnswerEndsTheWait : Prop :=
  ∀ (s : State) (k : InputRequest), s.Inv → s.pending = some k → s.input = [] →
    s.run = .running ∧ step s = .fault (.awaitingHost k) ∧
    (∀ a, step (s.answer a) = exec .syscall (s.answer a)) ∧
    (∀ v, k = .int → SyscallReads (s.answer (.int v)) v []) ∧
    (∀ b, k = .char → SyscallReads (s.answer (.char b)) (b.setWidth 32) []) ∧
    (∀ v, k = .char → SyscallReads (s.answer (.endOfInput v)) v []) ∧
    (∀ limit bytes, k = .line limit → bytes.length ≤ limit →
      ((s.readReg Reg.a0).toNat + bytes.length + 1 ≤ s.memSize.val →
        SyscallStoresLine (s.answer (.line bytes)) bytes []) ∧
      (s.memSize.val < (s.readReg Reg.a0).toNat + bytes.length + 1 →
        SyscallLineAborts (s.answer (.line bytes)) bytes []))

/-- Derived from R33, R35 and R212 (log 6, log 7): the host's two transactions during a run keep the invariant; `In(kind)`
changes at most the pending input, and `Answer(value)` at most the input stream. -/
def Obligations.HostTransactionsKeepInvariant : Prop :=
  ∀ (s : State) (a : HostAnswer),
    (s.Inv → s.ask.Inv ∧ (s.answer a).Inv) ∧
    s.ask = { s with pending := s.ask.pending } ∧ s.answer a = { s with input := s.input ++ [a] }

/-! ## The cycle -/

/-- Derived from R120, R124: when the four bytes at the pc decode to an instruction, a step of a Running core is that
instruction's execution in the same state; and `withFetchWord` places a word so that the step runs it (log 25). -/
def Obligations.StepRunsTheDecodedInstruction : Prop :=
  ∀ (s : State) (i : Instr) (w : Word),
    (s.run = .running → s.pc.toNat + 4 ≤ s.memSize.val →
      decode [s.mem.read s.pc.toNat, s.mem.read (s.pc.toNat + 1), s.mem.read (s.pc.toNat + 2),
        s.mem.read (s.pc.toNat + 3)] = .ok (i, []) → step s = exec i s) ∧
    (s.mem.wf = true → decodeWord w = .ok i →
      step (s.withFetchWord 32 w.toNat) = exec i (s.withFetchWord 32 w.toNat))

/-- Derived from R125, R90 (for an unknown function decision D8): a word no row selects sends a diagnostic with the pc, the
pc advances by 4, and nothing else changes. -/
def Obligations.UnimplementedWordsAreSkipped : Prop :=
  ∀ (s : State) (e : DecodeReject), s.run = .running → s.pc.toNat + 4 ≤ s.memSize.val →
    decodeWord (s.mem.readWord s.pc.toNat) = .error e →
    ∃ t, step s = .next t ∧ t.diags = s.diags ++ [.unimplementedOpcode s.pc] ∧ t.pc = s.pc + 0x00000004#32 ∧
      SameRegs s t ∧ SameMemory s t ∧ SameRun s t ∧ t.input = s.input ∧ t.output = s.output

/-- R121: the fetched word is the four bytes at the pc, little-endian; a pc whose word is not below the ceiling aborts
with FetchOutOfRange before any other effect. -/
def Obligations.FetchReadsOrAborts : Prop :=
  ∀ s : State,
    (s.pc.toNat + 4 ≤ s.memSize.val →
      s.fetch = .ok (s.mem.read (s.pc.toNat + 3) ++ s.mem.read (s.pc.toNat + 2) ++ s.mem.read (s.pc.toNat + 1) ++
        s.mem.read s.pc.toNat)) ∧
    (s.run = .running → s.memSize.val < s.pc.toNat + 4 →
      ∃ t, step s = .next t ∧ t.run = .aborted (.fetchOutOfRange s.pc) ∧ t.pc = s.pc ∧ SameRegs s t ∧ SameMemory s t ∧
        SameStreams s t ∧ t.exitCode = s.exitCode ∧ t.pending = s.pending ∧ t.memSize = s.memSize)

/-- Derived from R27, R33, R120, R212 (Aborted is decision D25; that a step that does not exist is a named fault is log 5 and
log 6): no step runs from Halted or Aborted, nor while the `syscall` at the pc makes a request that the host has not
answered; in every other state there is a next state. -/
def Obligations.StepsExistExactlyWhenEnabled : Prop :=
  ∀ s : State,
    (s.run ≠ .running → step s = .fault .notRunning) ∧
    (∀ k, s.run = .running → s.request = some k → ¬ s.answered k → step s = .fault (.awaitingHost k)) ∧
    (s.run = .running → (∀ k, s.request = some k → s.answered k) → ∃ t, step s = .next t)

/-- Derived from R126, R127, R129, R130 (decision D25): an instruction that is no branch or jump and that gives a next state
leaves pc + 4, unless it aborts, and then the pc stays; and it makes no request pending. -/
def Obligations.DefaultAdvanceIsFour : Prop :=
  ∀ (i : Instr) (s t : State), s.run = .running → mayTransfer i = false → exec i s = .next t →
    (t.pending = none ∨ t.pending = s.pending) ∧
    ((t.pc = s.pc + 0x00000004#32 ∧ (t.run = .running ∨ t.run = .halted)) ∨
     (t.pc = s.pc ∧ ∃ e, t.run = .aborted e))

/-- Derived from R58, R61, R216: an instruction that gives a next state leaves every byte of memory as it was, except the
bytes of a store and of `read_string`'s buffer. -/
def Obligations.OnlyStoresChangeMemory : Prop :=
  ∀ (i : Instr) (s t : State), exec i s = .next t → ∀ a, ¬ mayStore i s a → t.mem.read a = s.mem.read a

/-- Derived from R128 (which the spec derives): a step reaches Halted only by a `syscall` with selector 10 or 17, and then
the pc is that of the `syscall` plus 4. -/
def Obligations.OnlyHaltingSyscallsHalt : Prop :=
  ∀ s t : State, step s = .next t → t.run = .halted →
    decodeWord (s.mem.readWord s.pc.toNat) = .ok .syscall ∧
    (s.readReg Reg.v0 = 0x0000000A#32 ∨ s.readReg Reg.v0 = 0x00000011#32) ∧ t.pc = s.pc + 0x00000004#32

/-- Derived from R243, R245 (decisions D25, D26): a step aborts only as the table lists: a fetch out of range, or the
instruction at the pc with an error it can raise. -/
def Obligations.OnlyListedErrorsAbort : Prop :=
  ∀ (s t : State) (e : FatalError), step s = .next t → t.run = .aborted e →
    (s.memSize.val < s.pc.toNat + 4 ∧ e = .fetchOutOfRange s.pc) ∨
    (∃ i, decodeWord (s.mem.readWord s.pc.toNat) = .ok i ∧ mayAbort i s e)

/-- Derived from R130, R216, R246 (decisions D25, D33): an abort leaves the state exactly as it was but for the run state,
except that an aborting `read_string` keeps the bytes of the line that lie below the ceiling, and has taken its answer and
has no request pending (log 22); even then the pc, the registers, every byte outside its buffer, the output and the
diagnostics are as before. -/
def Obligations.AbortsArePrecise : Prop :=
  ∀ (s t : State) (e : FatalError), step s = .next t → t.run = .aborted e →
    t = { s with run := .aborted e } ∨
    (decodeWord (s.mem.readWord s.pc.toNat) = .ok .syscall ∧ s.readReg Reg.v0 = 0x00000008#32 ∧
      ∃ bytes rest, s.input = .line bytes :: rest ∧ t.input = rest ∧ t.pending = none ∧
        (∀ a, ¬ mayStore .syscall s a → t.mem.read a = s.mem.read a) ∧
        (s.mem.wf = true → StoresBytes s t (s.readReg Reg.a0).toNat
          (bytes.take (s.memSize.val - (s.readReg Reg.a0).toNat))) ∧
        t.pc = s.pc ∧ SameRegs s t ∧ t.output = s.output ∧ t.diags = s.diags ∧ t.exitCode = s.exitCode ∧
        t.memSize = s.memSize)

/-- Derived from R34, R211, R242 (decision D35): the core never reads back what it sent: a step appends to the output and
the diagnostics, and does the same whatever the two streams held before. -/
def Obligations.SentStreamsAreNeverReadBack : Prop :=
  ∀ s t : State, step s = .next t →
    ∃ o d, t.output = s.output ++ o ∧ t.diags = s.diags ++ d ∧
      ∀ (o' : List Byte) (d' : List Diag),
        step { s with output := o', diags := d' } = .next { t with output := o' ++ o, diags := d' ++ d }

/-- Derived from R34, R212, R271: a step takes at most one answer from the input stream, the oldest (that the answers are a
list consumed in order is this model's choice, log 7), and never changes MEM_SIZE. -/
def Obligations.StepsConsumeInputInOrder : Prop :=
  ∀ s t : State, step s = .next t →
    (t.input = s.input ∨ ∃ a, s.input = a :: t.input) ∧ t.memSize = s.memSize

/-- Derived (the invariant is this model's, after R21, R28, R33, R50): every step from a state that meets the invariant
gives a state that meets it. -/
def Obligations.StepKeepsInvariant : Prop := ∀ s t : State, s.Inv → step s = .next t → t.Inv

/-! ## Encodings -/

/-- R105: decoding the bytes of an encoded instruction recovers it, with every operand at every value the encoding admits
and whatever follows it; and encoding what a word decodes to recovers the word up to its ignored fields. -/
def Obligations.EncodingRoundTrips : Prop :=
  (∀ (i : Instr) (rest : List Byte), i.wellFormed = true → decode (bytesOfWord (encode i) ++ rest) = .ok (i, rest)) ∧
  (∀ (w : Word) (i : Instr), decodeWord w = .ok i → i.wellFormed = true ∧ encode i = w &&& i.usedBits)

/-- Derived from R89 (decision D7): words that differ only in fields an instruction does not use decode to the same
instruction. -/
def Obligations.UnusedFieldsAreIgnored : Prop :=
  ∀ (w w' : Word) (i : Instr), decodeWord w = .ok i → w' &&& i.usedBits = w &&& i.usedBits → decodeWord w' = .ok i

/-- Derived from R84, R90, R124 and spec/opcode_table.json (decisions D4 to D6, D8): a decoded instruction's row is in the
table and selects the word, no other row does, and a word is rejected exactly when no row selects it. -/
def Obligations.DecoderFollowsTheTable : Prop :=
  ∀ w : Word,
    (∀ i, decodeWord w = .ok i → i.row ∈ opcodeTable ∧ i.row.selects w ∧ ∀ r ∈ opcodeTable, r.selects w → r = i.row) ∧
    ((∃ e, decodeWord w = .error e) ↔ ∀ r ∈ opcodeTable, ¬ r.selects w)

/-- Derived (the words of the spec's examples, one per format and family; the values are decisions D4 to D6): they decode
to the instructions the spec gives them. -/
def Obligations.ExampleWordsDecode : Prop :=
  decodeWord 0x01095020#32 = .ok (.add 10 8 9) ∧ decodeWord 0x00085100#32 = .ok (.sll 10 8 4) ∧
  decodeWord 0x210AFFFF#32 = .ok (.addi 10 8 0xFFFF#16) ∧ decodeWord 0x51090003#32 = .ok (.blt 8 9 0x0003#16) ∧
  decodeWord 0x8D0A0004#32 = .ok (.lw 10 8 0x0004#16) ∧ decodeWord 0xA1090001#32 = .ok (.sb 9 8 0x0001#16) ∧
  decodeWord 0x0C000040#32 = .ok (.jal 0x0000040#26) ∧ decodeWord 0x03E00008#32 = .ok (.jr 31) ∧
  decodeWord 0x03FFFFCC#32 = .ok .syscall ∧ decodeWord 0xFC000000#32 = .error (.unknownOpcode 0x3F#6)

/-! ## Images -/

/-- Derived from R98, R99, R100 (the limit of `la` is the spec's derivation): `move` copies, `li` loads the sign-extended
literal, and `la` loads the label's address below 32768 and that address minus 65536 from 32768 to 65535. -/
def Obligations.PseudoInstructionsLoad : Prop :=
  ∀ (rd rs : Reg) (imm : Imm) (a : Word) (s : State),
    ComputesInto (asmMove rd rs) s rd (s.readReg rs) ∧
    ComputesInto (asmLi rd imm) s rd (imm.signExtend 32) ∧
    (a.toNat < 32768 → ComputesInto (asmLa rd a) s rd a) ∧
    (32768 ≤ a.toNat → a.toNat < 65536 → ComputesInto (asmLa rd a) s rd (a - 0x00010000#32))

/-- Derived from R93, R94 (decision D18): in an image, a line's bytes start at the address counter before it, so after a
launch with ENTRY at an instruction line the first step runs that instruction. -/
def Obligations.LaunchedImageRunsItsFirstInstruction : Prop :=
  ∀ (before after : List Line) (i : Instr) (l : Launch), i.wellFormed = true →
    l.image = imageOf (before ++ .instr i :: after) → l.image.length ≤ l.memSize.val →
    l.entry = BitVec.ofNat 32 (counterAfter before) →
    ∃ t, State.launch l = .next t ∧ step t = exec i t
end

