-- ==== Sys2Proof/Laws/Decode.lean ====
section
/-! SUPPORT. What the fields of a word are as numbers, and the fields of an encoded word in each of the three layouts. -/

namespace Sys2Proof

/-! ## Fields as numbers (spec/40_cycle.md R122) -/

theorem opField_toNat (w : Word) : (opField w).toNat = w.toNat / 67108864 % 64 := by
  rw [opField, BitVec.extractLsb'_toNat, Nat.shiftRight_eq_div_pow]

theorem rsField_val (w : Word) : (rsField w).val = w.toNat / 2097152 % 32 := by
  rw [rsField, BitVec.val_toFin, BitVec.extractLsb'_toNat, Nat.shiftRight_eq_div_pow]

theorem rtField_val (w : Word) : (rtField w).val = w.toNat / 65536 % 32 := by
  rw [rtField, BitVec.val_toFin, BitVec.extractLsb'_toNat, Nat.shiftRight_eq_div_pow]

theorem rdField_val (w : Word) : (rdField w).val = w.toNat / 2048 % 32 := by
  rw [rdField, BitVec.val_toFin, BitVec.extractLsb'_toNat, Nat.shiftRight_eq_div_pow]

theorem shamtField_eq (w : Word) : shamtField w = w.toNat / 64 % 32 := by
  rw [shamtField, BitVec.extractLsb'_toNat, Nat.shiftRight_eq_div_pow]

theorem functField_toNat (w : Word) : (functField w).toNat = w.toNat % 64 := by
  rw [functField, BitVec.extractLsb'_toNat, Nat.shiftRight_zero]

theorem immField_toNat (w : Word) : (immField w).toNat = w.toNat % 65536 := by
  rw [immField, BitVec.extractLsb'_toNat, Nat.shiftRight_zero]

theorem targetField_toNat (w : Word) : (targetField w).toNat = w.toNat % 67108864 := by
  rw [targetField, BitVec.extractLsb'_toNat, Nat.shiftRight_zero]

theorem shamtField_lt (w : Word) : shamtField w < 32 := by rw [shamtField_eq]; omega

/-! ## Encoded words as numbers (spec/30_encoding.md R81 to R83) -/

theorem iType_toNat (op : BitVec 6) (rs rt : Reg) (imm : Imm) :
    (iType op rs rt imm).toNat = op.toNat * 67108864 + rs.val * 2097152 + rt.val * 65536 + imm.toNat := by
  have := op.isLt; have := rs.isLt; have := rt.isLt; have := imm.isLt
  simp only [iType, regBits, BitVec.toNat_append, BitVec.toNat_ofFin]
  rw [← Nat.shiftLeft_add_eq_or_of_lt (by omega), ← Nat.shiftLeft_add_eq_or_of_lt (by omega),
    ← Nat.shiftLeft_add_eq_or_of_lt (by omega)]
  simp only [Nat.shiftLeft_eq]
  omega

theorem rType_toNat (rs rt rd shamt : BitVec 5) (funct : BitVec 6) :
    (rType rs rt rd shamt funct).toNat =
      rs.toNat * 2097152 + rt.toNat * 65536 + rd.toNat * 2048 + shamt.toNat * 64 + funct.toNat := by
  have := rs.isLt; have := rt.isLt; have := rd.isLt; have := shamt.isLt; have := funct.isLt
  simp only [rType, opSpecial, BitVec.toNat_append, BitVec.toNat_ofNat]
  rw [← Nat.shiftLeft_add_eq_or_of_lt (by omega), ← Nat.shiftLeft_add_eq_or_of_lt (by omega),
    ← Nat.shiftLeft_add_eq_or_of_lt (by omega), ← Nat.shiftLeft_add_eq_or_of_lt (by omega),
    ← Nat.shiftLeft_add_eq_or_of_lt (by omega)]
  simp only [Nat.shiftLeft_eq]
  omega

theorem jType_toNat (op : BitVec 6) (target : Target) :
    (jType op target).toNat = op.toNat * 67108864 + target.toNat := by
  have := op.isLt; have := target.isLt
  simp only [jType, BitVec.toNat_append]
  rw [← Nat.shiftLeft_add_eq_or_of_lt (by omega)]
  simp only [Nat.shiftLeft_eq]

@[simp] theorem regBits_toNat (r : Reg) : (regBits r).toNat = r.val := rfl

/-! ## The fields of an I-type word -/

@[simp] theorem opField_iType (op : BitVec 6) (rs rt : Reg) (imm : Imm) : opField (iType op rs rt imm) = op := by
  have := op.isLt; have := rs.isLt; have := rt.isLt; have := imm.isLt
  apply BitVec.eq_of_toNat_eq
  rw [opField_toNat, iType_toNat]
  omega

@[simp] theorem rsField_iType (op : BitVec 6) (rs rt : Reg) (imm : Imm) : rsField (iType op rs rt imm) = rs := by
  have := op.isLt; have := rs.isLt; have := rt.isLt; have := imm.isLt
  apply Fin.ext
  rw [rsField_val, iType_toNat]
  omega

@[simp] theorem rtField_iType (op : BitVec 6) (rs rt : Reg) (imm : Imm) : rtField (iType op rs rt imm) = rt := by
  have := op.isLt; have := rs.isLt; have := rt.isLt; have := imm.isLt
  apply Fin.ext
  rw [rtField_val, iType_toNat]
  omega

@[simp] theorem immField_iType (op : BitVec 6) (rs rt : Reg) (imm : Imm) : immField (iType op rs rt imm) = imm := by
  have := op.isLt; have := rs.isLt; have := rt.isLt; have := imm.isLt
  apply BitVec.eq_of_toNat_eq
  rw [immField_toNat, iType_toNat]
  omega

/-! ## The fields of an R-type word -/

@[simp] theorem opField_rType (rs rt rd shamt : BitVec 5) (funct : BitVec 6) : opField (rType rs rt rd shamt funct) = opSpecial := by
  have := rs.isLt; have := rt.isLt; have := rd.isLt; have := shamt.isLt; have := funct.isLt
  apply BitVec.eq_of_toNat_eq
  rw [opField_toNat, rType_toNat, opSpecial, BitVec.toNat_ofNat]
  omega

@[simp] theorem rsField_rType (rs rt rd shamt : BitVec 5) (funct : BitVec 6) : rsField (rType rs rt rd shamt funct) = rs.toFin := by
  have := rs.isLt; have := rt.isLt; have := rd.isLt; have := shamt.isLt; have := funct.isLt
  apply Fin.ext
  rw [rsField_val, rType_toNat, BitVec.val_toFin]
  omega

@[simp] theorem rtField_rType (rs rt rd shamt : BitVec 5) (funct : BitVec 6) : rtField (rType rs rt rd shamt funct) = rt.toFin := by
  have := rs.isLt; have := rt.isLt; have := rd.isLt; have := shamt.isLt; have := funct.isLt
  apply Fin.ext
  rw [rtField_val, rType_toNat, BitVec.val_toFin]
  omega

@[simp] theorem rdField_rType (rs rt rd shamt : BitVec 5) (funct : BitVec 6) : rdField (rType rs rt rd shamt funct) = rd.toFin := by
  have := rs.isLt; have := rt.isLt; have := rd.isLt; have := shamt.isLt; have := funct.isLt
  apply Fin.ext
  rw [rdField_val, rType_toNat, BitVec.val_toFin]
  omega

@[simp] theorem shamtField_rType (rs rt rd shamt : BitVec 5) (funct : BitVec 6) : shamtField (rType rs rt rd shamt funct) = shamt.toNat := by
  have := rs.isLt; have := rt.isLt; have := rd.isLt; have := shamt.isLt; have := funct.isLt
  rw [shamtField_eq, rType_toNat]
  omega

@[simp] theorem functField_rType (rs rt rd shamt : BitVec 5) (funct : BitVec 6) : functField (rType rs rt rd shamt funct) = funct := by
  have := rs.isLt; have := rt.isLt; have := rd.isLt; have := shamt.isLt; have := funct.isLt
  apply BitVec.eq_of_toNat_eq
  rw [functField_toNat, rType_toNat]
  omega

@[simp] theorem regBits_toFin (r : Reg) : (regBits r).toFin = r := rfl

/-! ## The fields of a J-type word -/

@[simp] theorem opField_jType (op : BitVec 6) (target : Target) : opField (jType op target) = op := by
  have := op.isLt; have := target.isLt
  apply BitVec.eq_of_toNat_eq
  rw [opField_toNat, jType_toNat]
  omega

@[simp] theorem targetField_jType (op : BitVec 6) (target : Target) : targetField (jType op target) = target := by
  have := op.isLt; have := target.isLt
  apply BitVec.eq_of_toNat_eq
  rw [targetField_toNat, jType_toNat]
  omega

/-! ## Words put together again from their fields -/

theorem iType_fields (w : Word) : iType (opField w) (rsField w) (rtField w) (immField w) = w := by
  apply BitVec.eq_of_toNat_eq
  rw [iType_toNat, opField_toNat, rsField_val, rtField_val, immField_toNat]
  have := w.isLt
  omega

theorem jType_fields (w : Word) : jType (opField w) (targetField w) = w := by
  apply BitVec.eq_of_toNat_eq
  rw [jType_toNat, opField_toNat, targetField_toNat]
  have := w.isLt
  omega

theorem rType_fields {w : Word} (h : opField w = opSpecial) :
    rType (regBits (rsField w)) (regBits (rtField w)) (regBits (rdField w)) (BitVec.ofNat 5 (shamtField w))
      (functField w) = w := by
  have h' := congrArg BitVec.toNat h
  rw [opField_toNat] at h'
  simp only [opSpecial, BitVec.toNat_ofNat] at h'
  apply BitVec.eq_of_toNat_eq
  rw [rType_toNat, regBits_toNat, regBits_toNat, regBits_toNat, rsField_val, rtField_val, rdField_val,
    BitVec.toNat_ofNat, shamtField_eq, functField_toNat]
  have := w.isLt
  omega

theorem jType_inj {op op' : BitVec 6} {t t' : Target} (h : jType op t = jType op' t') : op = op' ∧ t = t' :=
  ⟨by simpa using congrArg opField h, by simpa using congrArg targetField h⟩

/-! ## Words under a mask -/

/-- A mask made of whole fields acts on an R-type word field by field. -/
theorem rType_and (a b c d a' b' c' d' : BitVec 5) (f f' o' : BitVec 6) :
    rType a b c d f &&& (o' ++ a' ++ b' ++ c' ++ d' ++ f' : BitVec 32) =
      rType (a &&& a') (b &&& b') (c &&& c') (d &&& d') (f &&& f') := by
  simp only [rType]
  rw [BitVec.and_append, BitVec.and_append, BitVec.and_append, BitVec.and_append, BitVec.and_append]
  simp [opSpecial]

theorem and_opMask (w : Word) : w &&& opMask = jType (opField w) 0#26 := by
  have ones : opField w &&& 63#6 = opField w := BitVec.and_allOnes
  have h : jType (opField w) (targetField w) &&& (63#6 ++ 0#26 : BitVec 32) =
      jType (opField w &&& 63#6) (targetField w &&& 0#26) := by
    simp only [jType]; rw [BitVec.and_append]
  rw [jType_fields, ones, BitVec.and_zero] at h
  exact h

theorem and_specialMask (w : Word) : w &&& specialMask = jType (opField w) ((functField w).setWidth 26) := by
  have ones : opField w &&& 63#6 = opField w := BitVec.and_allOnes
  have low : targetField w &&& 63#26 = (functField w).setWidth 26 := by
    apply BitVec.eq_of_toNat_eq
    rw [BitVec.toNat_and, targetField_toNat, BitVec.toNat_setWidth, functField_toNat]
    show _ &&& 2 ^ 6 - 1 = _
    rw [Nat.and_two_pow_sub_one_eq_mod]
    omega
  have h : jType (opField w) (targetField w) &&& (63#6 ++ 63#26 : BitVec 32) =
      jType (opField w &&& 63#6) (targetField w &&& 63#26) := by
    simp only [jType]; rw [BitVec.and_append]
  rw [jType_fields, ones, low] at h
  exact h

/-- What a row with a whole-opcode mask selects. -/
theorem selects_opMask {m : String} {op : BitVec 6} {p : Word} (hp : p = jType op 0#26) (w : Word) :
    Row.selects ⟨m, p, opMask⟩ w ↔ opField w = op := by
  subst hp
  unfold Row.selects
  rw [and_opMask]
  exact ⟨fun h => (jType_inj h).1, fun h => by rw [h]⟩

/-- What a row of op 0 selects. -/
theorem selects_specialMask {m : String} {f : BitVec 6} {p : Word} (hp : p = jType opSpecial (f.setWidth 26)) (w : Word) :
    Row.selects ⟨m, p, specialMask⟩ w ↔ opField w = opSpecial ∧ functField w = f := by
  subst hp
  unfold Row.selects
  rw [and_specialMask]
  refine ⟨fun h => ⟨(jType_inj h).1, ?_⟩, fun h => by rw [h.1, h.2]⟩
  have e := congrArg BitVec.toNat (jType_inj h).2
  have := (functField w).isLt
  have := f.isLt
  apply BitVec.eq_of_toNat_eq
  simp only [BitVec.toNat_setWidth] at e
  omega

/-! ## Inversion: what a decoded or rejected word was -/

/-- Everything `decodeSpecial` can answer. -/
theorem decodeSpecial_cases (w : Word) :
    (functField w = fnAdd ∧ decodeSpecial w = .ok (.add (rdField w) (rsField w) (rtField w))) ∨
    (functField w = fnSub ∧ decodeSpecial w = .ok (.sub (rdField w) (rsField w) (rtField w))) ∨
    (functField w = fnAnd ∧ decodeSpecial w = .ok (.and (rdField w) (rsField w) (rtField w))) ∨
    (functField w = fnOr ∧ decodeSpecial w = .ok (.or (rdField w) (rsField w) (rtField w))) ∨
    (functField w = fnNor ∧ decodeSpecial w = .ok (.nor (rdField w) (rsField w) (rtField w))) ∨
    (functField w = fnSlt ∧ decodeSpecial w = .ok (.slt (rdField w) (rsField w) (rtField w))) ∨
    (functField w = fnMul ∧ decodeSpecial w = .ok (.mul (rdField w) (rsField w) (rtField w))) ∨
    (functField w = fnSll ∧ decodeSpecial w = .ok (.sll (rdField w) (rtField w) (shamtField w))) ∨
    (functField w = fnSrl ∧ decodeSpecial w = .ok (.srl (rdField w) (rtField w) (shamtField w))) ∨
    (functField w = fnJr ∧ decodeSpecial w = .ok (.jr (rsField w))) ∨
    (functField w = fnSyscall ∧ decodeSpecial w = .ok .syscall) ∨
    (functField w ∉ [fnAdd, fnSub, fnAnd, fnOr, fnNor, fnSlt, fnMul, fnSll, fnSrl, fnJr, fnSyscall] ∧ decodeSpecial w = .error (.unknownFunct (functField w))) := by
  unfold decodeSpecial
  by_cases h0 : functField w = fnAdd
  · exact .inl ⟨h0, if_pos h0⟩
  rw [if_neg h0]
  refine .inr ?_
  by_cases h1 : functField w = fnSub
  · exact .inl ⟨h1, if_pos h1⟩
  rw [if_neg h1]
  refine .inr ?_
  by_cases h2 : functField w = fnAnd
  · exact .inl ⟨h2, if_pos h2⟩
  rw [if_neg h2]
  refine .inr ?_
  by_cases h3 : functField w = fnOr
  · exact .inl ⟨h3, if_pos h3⟩
  rw [if_neg h3]
  refine .inr ?_
  by_cases h4 : functField w = fnNor
  · exact .inl ⟨h4, if_pos h4⟩
  rw [if_neg h4]
  refine .inr ?_
  by_cases h5 : functField w = fnSlt
  · exact .inl ⟨h5, if_pos h5⟩
  rw [if_neg h5]
  refine .inr ?_
  by_cases h6 : functField w = fnMul
  · exact .inl ⟨h6, if_pos h6⟩
  rw [if_neg h6]
  refine .inr ?_
  by_cases h7 : functField w = fnSll
  · exact .inl ⟨h7, if_pos h7⟩
  rw [if_neg h7]
  refine .inr ?_
  by_cases h8 : functField w = fnSrl
  · exact .inl ⟨h8, if_pos h8⟩
  rw [if_neg h8]
  refine .inr ?_
  by_cases h9 : functField w = fnJr
  · exact .inl ⟨h9, if_pos h9⟩
  rw [if_neg h9]
  refine .inr ?_
  by_cases h10 : functField w = fnSyscall
  · exact .inl ⟨h10, if_pos h10⟩
  rw [if_neg h10]
  refine .inr ?_
  exact ⟨by simp [*], rfl⟩

/-- Everything `decodeWord` can answer. -/
theorem decodeWord_cases (w : Word) :
    (opField w = opSpecial ∧ decodeWord w = decodeSpecial w) ∨
    (opField w = opAddi ∧ decodeWord w = .ok (.addi (rtField w) (rsField w) (immField w))) ∨
    (opField w = opSlti ∧ decodeWord w = .ok (.slti (rtField w) (rsField w) (immField w))) ∨
    (opField w = opAndi ∧ decodeWord w = .ok (.andi (rtField w) (rsField w) (immField w))) ∨
    (opField w = opOri ∧ decodeWord w = .ok (.ori (rtField w) (rsField w) (immField w))) ∨
    (opField w = opBeq ∧ decodeWord w = .ok (.beq (rsField w) (rtField w) (immField w))) ∨
    (opField w = opBne ∧ decodeWord w = .ok (.bne (rsField w) (rtField w) (immField w))) ∨
    (opField w = opBlt ∧ decodeWord w = .ok (.blt (rsField w) (rtField w) (immField w))) ∨
    (opField w = opBge ∧ decodeWord w = .ok (.bge (rsField w) (rtField w) (immField w))) ∨
    (opField w = opLw ∧ decodeWord w = .ok (.lw (rtField w) (rsField w) (immField w))) ∨
    (opField w = opLbu ∧ decodeWord w = .ok (.lbu (rtField w) (rsField w) (immField w))) ∨
    (opField w = opSw ∧ decodeWord w = .ok (.sw (rtField w) (rsField w) (immField w))) ∨
    (opField w = opSb ∧ decodeWord w = .ok (.sb (rtField w) (rsField w) (immField w))) ∨
    (opField w = opJ ∧ decodeWord w = .ok (.j (targetField w))) ∨
    (opField w = opJal ∧ decodeWord w = .ok (.jal (targetField w))) ∨
    (opField w ∉ [opSpecial, opAddi, opSlti, opAndi, opOri, opBeq, opBne, opBlt, opBge, opLw, opLbu, opSw, opSb, opJ, opJal] ∧ decodeWord w = .error (.unknownOpcode (opField w))) := by
  unfold decodeWord
  by_cases h0 : opField w = opSpecial
  · exact .inl ⟨h0, if_pos h0⟩
  rw [if_neg h0]
  refine .inr ?_
  by_cases h1 : opField w = opAddi
  · exact .inl ⟨h1, if_pos h1⟩
  rw [if_neg h1]
  refine .inr ?_
  by_cases h2 : opField w = opSlti
  · exact .inl ⟨h2, if_pos h2⟩
  rw [if_neg h2]
  refine .inr ?_
  by_cases h3 : opField w = opAndi
  · exact .inl ⟨h3, if_pos h3⟩
  rw [if_neg h3]
  refine .inr ?_
  by_cases h4 : opField w = opOri
  · exact .inl ⟨h4, if_pos h4⟩
  rw [if_neg h4]
  refine .inr ?_
  by_cases h5 : opField w = opBeq
  · exact .inl ⟨h5, if_pos h5⟩
  rw [if_neg h5]
  refine .inr ?_
  by_cases h6 : opField w = opBne
  · exact .inl ⟨h6, if_pos h6⟩
  rw [if_neg h6]
  refine .inr ?_
  by_cases h7 : opField w = opBlt
  · exact .inl ⟨h7, if_pos h7⟩
  rw [if_neg h7]
  refine .inr ?_
  by_cases h8 : opField w = opBge
  · exact .inl ⟨h8, if_pos h8⟩
  rw [if_neg h8]
  refine .inr ?_
  by_cases h9 : opField w = opLw
  · exact .inl ⟨h9, if_pos h9⟩
  rw [if_neg h9]
  refine .inr ?_
  by_cases h10 : opField w = opLbu
  · exact .inl ⟨h10, if_pos h10⟩
  rw [if_neg h10]
  refine .inr ?_
  by_cases h11 : opField w = opSw
  · exact .inl ⟨h11, if_pos h11⟩
  rw [if_neg h11]
  refine .inr ?_
  by_cases h12 : opField w = opSb
  · exact .inl ⟨h12, if_pos h12⟩
  rw [if_neg h12]
  refine .inr ?_
  by_cases h13 : opField w = opJ
  · exact .inl ⟨h13, if_pos h13⟩
  rw [if_neg h13]
  refine .inr ?_
  by_cases h14 : opField w = opJal
  · exact .inl ⟨h14, if_pos h14⟩
  rw [if_neg h14]
  refine .inr ?_
  exact ⟨by simp [*], rfl⟩

/-- The decoder on the word a machine word's bytes make. -/
theorem decode_cons (b0 b1 b2 b3 : Byte) (rest : List Byte) :
    decode (b0 :: b1 :: b2 :: b3 :: rest) = (decodeWord (wordOfBytes b0 b1 b2 b3)).map (fun i => (i, rest)) := rfl

end Sys2Proof
end

