-- ==== Sys2Proof/Laws/Memory.lean ====
section
/-! SUPPORT. The laws of memory: a byte reads back as written, other bytes are left alone, and every operation keeps the
canonical form and the bound. -/

namespace Sys2Proof.Machine

/-! ## Reading after writing -/

/-- A write leaves every other byte alone, in any list of cells. -/
theorem read_write_other (m : Memory) {a c : Nat} (b : Byte) (h : c ≠ a) : (m.write a b).read c = m.read c := by
  induction m with
  | nil => by_cases hb : b = Memory.unlisted <;> simp [Memory.write, Memory.read, hb, h.symm]
  | cons x rest ih =>
    obtain ⟨k, v⟩ := x
    by_cases hak : a < k
    · by_cases hb : b = Memory.unlisted <;> simp [Memory.write, Memory.read, hak, hb, h.symm]
    · by_cases hk : a = k
      · subst hk
        by_cases hb : b = Memory.unlisted <;> simp [Memory.write, Memory.read, hb, h.symm]
      · simp [Memory.write, Memory.read, hak, hk, ih]

theorem wf_tail {k : Nat} {v : Byte} {rest : Memory} (h : Memory.wf ((k, v) :: rest) = true) : rest.wf = true := by
  cases rest with
  | nil => rfl
  | cons y r => simp only [Memory.wf, Bool.and_eq_true] at h; exact h.2

theorem wf_head {k : Nat} {v : Byte} {rest : Memory} (h : Memory.wf ((k, v) :: rest) = true) : v ≠ Memory.unlisted := by
  cases rest with
  | nil => simpa [Memory.wf] using h
  | cons y r => simp only [Memory.wf, Bool.and_eq_true, decide_eq_true_eq] at h; exact h.1.2

/-- In canonical form the addresses after the first are above it. -/
theorem wf_above {k : Nat} {v : Byte} {rest : Memory} (h : Memory.wf ((k, v) :: rest) = true) :
    ∀ c ∈ rest, k < c.1 := by
  induction rest generalizing k v with
  | nil => simp
  | cons y r ih =>
    obtain ⟨k', v'⟩ := y
    have hlt : k < k' := by simp only [Memory.wf, Bool.and_eq_true, decide_eq_true_eq] at h; exact h.1.1
    intro c hc
    rcases List.mem_cons.1 hc with rfl | hc
    · exact hlt
    · exact hlt.trans (ih (wf_tail h) c hc)

/-- The canonical form, built from its parts. -/
theorem wf_cons {k : Nat} {v : Byte} {rest : Memory} (hv : v ≠ Memory.unlisted) (hr : rest.wf = true)
    (habove : ∀ c ∈ rest, k < c.1) : Memory.wf ((k, v) :: rest) = true := by
  cases rest with
  | nil => simpa [Memory.wf] using hv
  | cons y r =>
    have := habove y (by simp)
    simp only [Memory.wf, Bool.and_eq_true, decide_eq_true_eq]
    exact ⟨⟨this, hv⟩, hr⟩

/-- An address below every listed one reads as unlisted. -/
theorem read_below {m : Memory} {a : Nat} (h : ∀ c ∈ m, a < c.1) : m.read a = Memory.unlisted := by
  induction m with
  | nil => rfl
  | cons x rest ih =>
    have hx := h x (by simp)
    rw [Memory.read, if_neg (by omega)]
    exact ih fun c hc => h c (by simp [hc])

/-- In canonical form a byte reads back as written. -/
theorem read_write_same (m : Memory) (a : Nat) (b : Byte) (h : m.wf = true) : (m.write a b).read a = b := by
  induction m with
  | nil => by_cases hb : b = Memory.unlisted <;> simp [Memory.write, Memory.read, hb]
  | cons x rest ih =>
    obtain ⟨k, v⟩ := x
    by_cases hak : a < k
    · by_cases hb : b = Memory.unlisted
      · subst hb
        have : ∀ c ∈ ((k, v) :: rest), a < c.1 := by
          intro c hc
          rcases List.mem_cons.1 hc with rfl | hc
          · exact hak
          · exact hak.trans (wf_above h c hc)
        simp [Memory.write, hak, read_below this]
      · simp [Memory.write, Memory.read, hak, hb]
    · by_cases hk : a = k
      · subst hk
        by_cases hb : b = Memory.unlisted
        · subst hb
          simp [Memory.write, read_below (wf_above h)]
        · simp [Memory.write, Memory.read, hb]
      · have : k ≠ a := Ne.symm hk
        simp [Memory.write, Memory.read, hak, hk, this, ih (wf_tail h)]

/-- R52 at the level of bytes, for both cases at once. -/
theorem read_write (m : Memory) (a c : Nat) (b : Byte) (h : m.wf = true) :
    (m.write a b).read c = if c = a then b else m.read c := by
  by_cases hc : c = a
  · subst hc; simp [read_write_same m c b h]
  · simp [hc, read_write_other m b hc]

/-! ## The canonical form and the bound are kept -/

/-- A listed cell of a write is the written one or was there before. -/
theorem mem_write {m : Memory} {a : Nat} {b : Byte} {c : Host.Cell} (h : c ∈ m.write a b) : c = (a, b) ∨ c ∈ m := by
  induction m with
  | nil =>
    by_cases hb : b = Memory.unlisted
    · simp [Memory.write, hb] at h
    · simp only [Memory.write, hb, if_false, List.mem_singleton] at h
      exact .inl h
  | cons x rest ih =>
    obtain ⟨k, v⟩ := x
    by_cases hak : a < k
    · by_cases hb : b = Memory.unlisted <;> simp [Memory.write, hak, hb] at h <;> simp [h]
    · by_cases hk : a = k
      · subst hk
        by_cases hb : b = Memory.unlisted <;> (simp [Memory.write, hb] at h; simp [h]; try tauto)
      · simp only [Memory.write, hak, hk, if_false, List.mem_cons] at h
        rcases h with rfl | h
        · simp
        · rcases ih h with h | h <;> simp [h]

theorem write_wf (m : Memory) (a : Nat) (b : Byte) (h : m.wf = true) : (m.write a b).wf = true := by
  induction m with
  | nil => by_cases hb : b = Memory.unlisted <;> simp [Memory.write, Memory.wf, hb]
  | cons x rest ih =>
    obtain ⟨k, v⟩ := x
    by_cases hak : a < k
    · by_cases hb : b = Memory.unlisted
      · simpa [Memory.write, hak, hb] using h
      · simp only [Memory.write, hak, hb, if_true, if_false]
        refine wf_cons hb h fun c hc => ?_
        rcases List.mem_cons.1 hc with rfl | hc
        · exact hak
        · exact hak.trans (wf_above h c hc)
    · by_cases hk : a = k
      · subst hk
        by_cases hb : b = Memory.unlisted
        · simpa [Memory.write, hb] using wf_tail h
        · simpa [Memory.write, hb] using wf_cons hb (wf_tail h) (wf_above h)
      · simp only [Memory.write, hak, hk, if_false]
        refine wf_cons (wf_head h) (ih (wf_tail h)) fun c hc => ?_
        rcases mem_write hc with rfl | hc
        · omega
        · exact wf_above h c hc

/-! ## Runs of bytes -/

/-- Bytes outside the written run are left alone. -/
theorem read_writeBytes_other (m : Memory) (a : Nat) (bs : List Byte) {c : Nat} (h : c < a ∨ a + bs.length ≤ c) :
    (m.writeBytes a bs).read c = m.read c := by
  induction bs generalizing m a with
  | nil => rfl
  | cons b bs ih =>
    simp only [List.length_cons] at h
    rw [Memory.writeBytes, ih (m.write a b) (a + 1) (by omega), read_write_other m b (by omega)]

theorem writeBytes_wf (m : Memory) (a : Nat) (bs : List Byte) (h : m.wf = true) : (m.writeBytes a bs).wf = true := by
  induction bs generalizing m a with
  | nil => exact h
  | cons b bs ih => exact ih (m.write a b) (a + 1) (write_wf m a b h)

/-- In canonical form every byte of the run reads back as written. -/
theorem read_writeBytes (m : Memory) (a : Nat) (bs : List Byte) (h : m.wf = true) (k : Nat) (hk : k < bs.length) :
    (m.writeBytes a bs).read (a + k) = bs[k] := by
  induction bs generalizing m a k with
  | nil => simp at hk
  | cons b bs ih =>
    cases k with
    | zero =>
      rw [Memory.writeBytes, read_writeBytes_other _ _ _ (by omega), Nat.add_zero, read_write_same m a b h]
      rfl
    | succ k =>
      have := ih (m.write a b) (a + 1) (write_wf m a b h) k (by simpa using hk)
      rw [Memory.writeBytes, show a + (k + 1) = a + 1 + k by omega, this]
      rfl

theorem writeBytes_bounded (m : Memory) (a n : Nat) (bs : List Byte) (h : ∀ c ∈ m, c.1 < n) (hn : a + bs.length ≤ n) :
    ∀ c ∈ m.writeBytes a bs, c.1 < n := by
  induction bs generalizing m a with
  | nil => exact h
  | cons b bs ih =>
    simp only [List.length_cons] at hn
    refine ih (m.write a b) (a + 1) (fun c hc => ?_) (by omega)
    rcases mem_write hc with rfl | hc
    · exact (by omega : a < n)
    · exact h c hc

/-! ## Words and their bytes -/

@[simp] theorem bytesOfWord_length (v : Word) : (bytesOfWord v).length = 4 := rfl

/-- R52, R53: a word is the little-endian word of its bytes. -/
theorem wordOfBytes_bytesOfWord (v : Word) :
    wordOfBytes (v.extractLsb' 0 8) (v.extractLsb' 8 8) (v.extractLsb' 16 8) (v.extractLsb' 24 8) = v := by
  apply BitVec.eq_of_toNat_eq
  simp only [wordOfBytes, BitVec.toNat_append, BitVec.extractLsb'_toNat, Nat.shiftRight_eq_div_pow]
  rw [← Nat.shiftLeft_add_eq_or_of_lt (by omega), ← Nat.shiftLeft_add_eq_or_of_lt (by omega),
    ← Nat.shiftLeft_add_eq_or_of_lt (by omega)]
  simp only [Nat.shiftLeft_eq]
  omega

/-- A word stored little-endian reads back. -/
theorem readWord_writeBytes (m : Memory) (a : Nat) (v : Word) (h : m.wf = true) :
    (m.writeBytes a (bytesOfWord v)).readWord a = v := by
  have h0 := read_writeBytes m a (bytesOfWord v) h 0 (by simp)
  have h1 := read_writeBytes m a (bytesOfWord v) h 1 (by simp)
  have h2 := read_writeBytes m a (bytesOfWord v) h 2 (by simp)
  have h3 := read_writeBytes m a (bytesOfWord v) h 3 (by simp)
  simp only [Nat.add_zero] at h0
  rw [Memory.readWord, h0, h1, h2, h3]
  exact wordOfBytes_bytesOfWord v

/-! ## Laying an image -/

theorem lay_wf (m : Memory) (a : Nat) (bs : List (Option Byte)) (h : m.wf = true) : (m.lay a bs).wf = true := by
  induction bs generalizing m a with
  | nil => exact h
  | cons b bs ih =>
    cases b with
    | none => exact ih m (a + 1) h
    | some b => exact ih (m.write a b) (a + 1) (write_wf m a b h)

theorem lay_bounded (m : Memory) (a n : Nat) (bs : List (Option Byte)) (h : ∀ c ∈ m, c.1 < n) (hn : a + bs.length ≤ n) :
    ∀ c ∈ m.lay a bs, c.1 < n := by
  induction bs generalizing m a with
  | nil => exact h
  | cons b bs ih =>
    simp only [List.length_cons] at hn
    cases b with
    | none => exact ih m (a + 1) h (by omega)
    | some b =>
      refine ih (m.write a b) (a + 1) (fun c hc => ?_) (by omega)
      rcases mem_write hc with rfl | hc
      · exact (by omega : a < n)
      · exact h c hc

/-- What a laid run leaves in memory: its defined bytes, and everything else as before. -/
theorem read_lay (m : Memory) (a : Nat) (bs : List (Option Byte)) (h : m.wf = true) (c : Nat) :
    (m.lay a bs).read c = if a ≤ c then (bs[c - a]?.join).getD (m.read c) else m.read c := by
  induction bs generalizing m a with
  | nil => simp [Memory.lay]
  | cons b bs ih =>
    have key : ∀ m' : Memory, m'.wf = true → (∀ x, x ≠ a → m'.read x = m.read x) → m'.read a = b.getD (m.read a) →
        (m'.lay (a + 1) bs).read c = if a ≤ c then ((b :: bs)[c - a]?.join).getD (m.read c) else m.read c := by
      intro m' hw ho hs
      rw [ih m' (a + 1) hw]
      rcases Nat.lt_trichotomy c a with hlt | rfl | hgt
      · rw [if_neg (by omega), if_neg (by omega), ho c (by omega)]
      · rw [if_neg (by omega), if_pos (le_refl c), hs]
        simp
      · rw [if_pos (by omega), if_pos (by omega), ho c (by omega), show c - a = c - (a + 1) + 1 by omega]
        simp
    cases b with
    | none => exact key m h (fun _ _ => rfl) rfl
    | some b => exact key _ (write_wf m a b h) (fun x hx => read_write_other m b hx) (read_write_same m a b h)

end Sys2Proof.Machine
end

