-- ==== Sys2Proof/Laws/State.lean ====
section
/-! SUPPORT. One lemma per field per update, and one per update for reading a register: no later proof unfolds a record
update. -/

namespace Sys2Proof.Machine

/-! ## `writeReg` -/

theorem writeReg_regs (s : State) (r : Reg) (v : Word) : (s.writeReg r v).regs = if r = Reg.zero then s.regs else s.regs.set r v := rfl
@[simp] theorem writeReg_pc (s : State) (r : Reg) (v : Word) : (s.writeReg r v).pc = s.pc := rfl
@[simp] theorem writeReg_run (s : State) (r : Reg) (v : Word) : (s.writeReg r v).run = s.run := rfl
@[simp] theorem writeReg_exitCode (s : State) (r : Reg) (v : Word) : (s.writeReg r v).exitCode = s.exitCode := rfl
@[simp] theorem writeReg_pending (s : State) (r : Reg) (v : Word) : (s.writeReg r v).pending = s.pending := rfl
@[simp] theorem writeReg_memSize (s : State) (r : Reg) (v : Word) : (s.writeReg r v).memSize = s.memSize := rfl
@[simp] theorem writeReg_mem (s : State) (r : Reg) (v : Word) : (s.writeReg r v).mem = s.mem := rfl
@[simp] theorem writeReg_input (s : State) (r : Reg) (v : Word) : (s.writeReg r v).input = s.input := rfl
@[simp] theorem writeReg_output (s : State) (r : Reg) (v : Word) : (s.writeReg r v).output = s.output := rfl
@[simp] theorem writeReg_diags (s : State) (r : Reg) (v : Word) : (s.writeReg r v).diags = s.diags := rfl
@[simp] theorem writeReg_inRange (s : State) (r : Reg) (v : Word) (x : Word) (n : Nat) : (s.writeReg r v).inRange x n = s.inRange x n := rfl

/-! ## `diag` -/

@[simp] theorem diag_regs (s : State) (d : Diag) : (s.diag d).regs = s.regs := rfl
@[simp] theorem diag_pc (s : State) (d : Diag) : (s.diag d).pc = s.pc := rfl
@[simp] theorem diag_run (s : State) (d : Diag) : (s.diag d).run = s.run := rfl
@[simp] theorem diag_exitCode (s : State) (d : Diag) : (s.diag d).exitCode = s.exitCode := rfl
@[simp] theorem diag_pending (s : State) (d : Diag) : (s.diag d).pending = s.pending := rfl
@[simp] theorem diag_memSize (s : State) (d : Diag) : (s.diag d).memSize = s.memSize := rfl
@[simp] theorem diag_mem (s : State) (d : Diag) : (s.diag d).mem = s.mem := rfl
@[simp] theorem diag_input (s : State) (d : Diag) : (s.diag d).input = s.input := rfl
@[simp] theorem diag_output (s : State) (d : Diag) : (s.diag d).output = s.output := rfl
@[simp] theorem diag_diags (s : State) (d : Diag) : (s.diag d).diags = s.diags ++ [d] := rfl
@[simp] theorem diag_readReg (s : State) (d : Diag) (q : Reg) : (s.diag d).readReg q = s.readReg q := rfl
@[simp] theorem diag_inRange (s : State) (d : Diag) (x : Word) (n : Nat) : (s.diag d).inRange x n = s.inRange x n := rfl

/-! ## `advance` -/

@[simp] theorem advance_regs (s : State) : (s.advance).regs = s.regs := rfl
@[simp] theorem advance_pc (s : State) : (s.advance).pc = s.pc + 0x00000004#32 := rfl
@[simp] theorem advance_run (s : State) : (s.advance).run = s.run := rfl
@[simp] theorem advance_exitCode (s : State) : (s.advance).exitCode = s.exitCode := rfl
@[simp] theorem advance_pending (s : State) : (s.advance).pending = s.pending := rfl
@[simp] theorem advance_memSize (s : State) : (s.advance).memSize = s.memSize := rfl
@[simp] theorem advance_mem (s : State) : (s.advance).mem = s.mem := rfl
@[simp] theorem advance_input (s : State) : (s.advance).input = s.input := rfl
@[simp] theorem advance_output (s : State) : (s.advance).output = s.output := rfl
@[simp] theorem advance_diags (s : State) : (s.advance).diags = s.diags := rfl
@[simp] theorem advance_readReg (s : State) (q : Reg) : (s.advance).readReg q = s.readReg q := rfl
@[simp] theorem advance_inRange (s : State) (x : Word) (n : Nat) : (s.advance).inRange x n = s.inRange x n := rfl

/-! ## `jumpTo` -/

@[simp] theorem jumpTo_regs (s : State) (u : Word) : (s.jumpTo u).regs = s.regs := rfl
@[simp] theorem jumpTo_pc (s : State) (u : Word) : (s.jumpTo u).pc = u := rfl
@[simp] theorem jumpTo_run (s : State) (u : Word) : (s.jumpTo u).run = s.run := rfl
@[simp] theorem jumpTo_exitCode (s : State) (u : Word) : (s.jumpTo u).exitCode = s.exitCode := rfl
@[simp] theorem jumpTo_pending (s : State) (u : Word) : (s.jumpTo u).pending = s.pending := rfl
@[simp] theorem jumpTo_memSize (s : State) (u : Word) : (s.jumpTo u).memSize = s.memSize := rfl
@[simp] theorem jumpTo_mem (s : State) (u : Word) : (s.jumpTo u).mem = s.mem := rfl
@[simp] theorem jumpTo_input (s : State) (u : Word) : (s.jumpTo u).input = s.input := rfl
@[simp] theorem jumpTo_output (s : State) (u : Word) : (s.jumpTo u).output = s.output := rfl
@[simp] theorem jumpTo_diags (s : State) (u : Word) : (s.jumpTo u).diags = s.diags := rfl
@[simp] theorem jumpTo_readReg (s : State) (u : Word) (q : Reg) : (s.jumpTo u).readReg q = s.readReg q := rfl
@[simp] theorem jumpTo_inRange (s : State) (u : Word) (x : Word) (n : Nat) : (s.jumpTo u).inRange x n = s.inRange x n := rfl

/-! ## `halt` -/

@[simp] theorem halt_regs (s : State) (c : Option Int) : (s.halt c).regs = s.regs := rfl
@[simp] theorem halt_pc (s : State) (c : Option Int) : (s.halt c).pc = s.pc + 0x00000004#32 := rfl
@[simp] theorem halt_run (s : State) (c : Option Int) : (s.halt c).run = .halted := rfl
@[simp] theorem halt_exitCode (s : State) (c : Option Int) : (s.halt c).exitCode = c := rfl
@[simp] theorem halt_pending (s : State) (c : Option Int) : (s.halt c).pending = s.pending := rfl
@[simp] theorem halt_memSize (s : State) (c : Option Int) : (s.halt c).memSize = s.memSize := rfl
@[simp] theorem halt_mem (s : State) (c : Option Int) : (s.halt c).mem = s.mem := rfl
@[simp] theorem halt_input (s : State) (c : Option Int) : (s.halt c).input = s.input := rfl
@[simp] theorem halt_output (s : State) (c : Option Int) : (s.halt c).output = s.output := rfl
@[simp] theorem halt_diags (s : State) (c : Option Int) : (s.halt c).diags = s.diags := rfl
@[simp] theorem halt_readReg (s : State) (c : Option Int) (q : Reg) : (s.halt c).readReg q = s.readReg q := rfl
@[simp] theorem halt_inRange (s : State) (c : Option Int) (x : Word) (n : Nat) : (s.halt c).inRange x n = s.inRange x n := rfl

/-! ## `abort` -/

@[simp] theorem abort_regs (s : State) (e : FatalError) : (s.abort e).regs = s.regs := rfl
@[simp] theorem abort_pc (s : State) (e : FatalError) : (s.abort e).pc = s.pc := rfl
@[simp] theorem abort_run (s : State) (e : FatalError) : (s.abort e).run = .aborted e := rfl
@[simp] theorem abort_exitCode (s : State) (e : FatalError) : (s.abort e).exitCode = s.exitCode := rfl
@[simp] theorem abort_pending (s : State) (e : FatalError) : (s.abort e).pending = s.pending := rfl
@[simp] theorem abort_memSize (s : State) (e : FatalError) : (s.abort e).memSize = s.memSize := rfl
@[simp] theorem abort_mem (s : State) (e : FatalError) : (s.abort e).mem = s.mem := rfl
@[simp] theorem abort_input (s : State) (e : FatalError) : (s.abort e).input = s.input := rfl
@[simp] theorem abort_output (s : State) (e : FatalError) : (s.abort e).output = s.output := rfl
@[simp] theorem abort_diags (s : State) (e : FatalError) : (s.abort e).diags = s.diags := rfl
@[simp] theorem abort_readReg (s : State) (e : FatalError) (q : Reg) : (s.abort e).readReg q = s.readReg q := rfl
@[simp] theorem abort_inRange (s : State) (e : FatalError) (x : Word) (n : Nat) : (s.abort e).inRange x n = s.inRange x n := rfl

/-! ## `hostOut` -/

@[simp] theorem hostOut_regs (s : State) (bs : List Byte) : (s.hostOut bs).regs = s.regs := rfl
@[simp] theorem hostOut_pc (s : State) (bs : List Byte) : (s.hostOut bs).pc = s.pc := rfl
@[simp] theorem hostOut_run (s : State) (bs : List Byte) : (s.hostOut bs).run = s.run := rfl
@[simp] theorem hostOut_exitCode (s : State) (bs : List Byte) : (s.hostOut bs).exitCode = s.exitCode := rfl
@[simp] theorem hostOut_pending (s : State) (bs : List Byte) : (s.hostOut bs).pending = s.pending := rfl
@[simp] theorem hostOut_memSize (s : State) (bs : List Byte) : (s.hostOut bs).memSize = s.memSize := rfl
@[simp] theorem hostOut_mem (s : State) (bs : List Byte) : (s.hostOut bs).mem = s.mem := rfl
@[simp] theorem hostOut_input (s : State) (bs : List Byte) : (s.hostOut bs).input = s.input := rfl
@[simp] theorem hostOut_output (s : State) (bs : List Byte) : (s.hostOut bs).output = s.output ++ bs := rfl
@[simp] theorem hostOut_diags (s : State) (bs : List Byte) : (s.hostOut bs).diags = s.diags := rfl
@[simp] theorem hostOut_readReg (s : State) (bs : List Byte) (q : Reg) : (s.hostOut bs).readReg q = s.readReg q := rfl
@[simp] theorem hostOut_inRange (s : State) (bs : List Byte) (x : Word) (n : Nat) : (s.hostOut bs).inRange x n = s.inRange x n := rfl

/-! ## `answer` -/

@[simp] theorem answer_regs (s : State) (a : HostAnswer) : (s.answer a).regs = s.regs := rfl
@[simp] theorem answer_pc (s : State) (a : HostAnswer) : (s.answer a).pc = s.pc := rfl
@[simp] theorem answer_run (s : State) (a : HostAnswer) : (s.answer a).run = s.run := rfl
@[simp] theorem answer_exitCode (s : State) (a : HostAnswer) : (s.answer a).exitCode = s.exitCode := rfl
@[simp] theorem answer_pending (s : State) (a : HostAnswer) : (s.answer a).pending = s.pending := rfl
@[simp] theorem answer_memSize (s : State) (a : HostAnswer) : (s.answer a).memSize = s.memSize := rfl
@[simp] theorem answer_mem (s : State) (a : HostAnswer) : (s.answer a).mem = s.mem := rfl
@[simp] theorem answer_input (s : State) (a : HostAnswer) : (s.answer a).input = s.input ++ [a] := rfl
@[simp] theorem answer_output (s : State) (a : HostAnswer) : (s.answer a).output = s.output := rfl
@[simp] theorem answer_diags (s : State) (a : HostAnswer) : (s.answer a).diags = s.diags := rfl
@[simp] theorem answer_readReg (s : State) (a : HostAnswer) (q : Reg) : (s.answer a).readReg q = s.readReg q := rfl
@[simp] theorem answer_inRange (s : State) (a : HostAnswer) (x : Word) (n : Nat) : (s.answer a).inRange x n = s.inRange x n := rfl

/-! ## Registers read back -/

@[simp] theorem readReg_zero (s : State) : s.readReg Reg.zero = 0x00000000#32 := if_pos rfl

@[simp] theorem writeReg_zero (s : State) (v : Word) : s.writeReg Reg.zero v = s := rfl

/-- R21 and R22 together: what any register reads as after a write. -/
theorem readReg_writeReg (s : State) (r : Reg) (v : Word) (q : Reg) :
    (s.writeReg r v).readReg q = if q = r ∧ r ≠ Reg.zero then v else s.readReg q := by
  by_cases hq : q = Reg.zero
  · subst hq
    by_cases hr : Reg.zero = r <;> simp [State.readReg, hr]
  · by_cases hr : r = Reg.zero
    · subst hr
      simp [State.readReg, hq]
    · by_cases hqr : q = r
      · subst hqr
        simp [State.readReg, writeReg_regs, hr]
      · have hne : (r : Nat) ≠ (q : Nat) := fun h => hqr (Fin.ext h.symm)
        simp [State.readReg, writeReg_regs, hr, hq, hqr, Vector.getElem_set_ne _ _ hne]

/-- A write leaves the storage of x[0] alone. -/
theorem writeReg_zeroStored (s : State) (r : Reg) (v : Word) : (s.writeReg r v).regs[(0 : Reg)] = s.regs[(0 : Reg)] := by
  by_cases hr : r = Reg.zero
  · simp [hr]
  · have hne : (r : Nat) ≠ ((0 : Reg) : Nat) := fun h => hr (Fin.ext h)
    simp only [writeReg_regs, hr, if_false]
    exact Vector.getElem_set_ne _ _ hne

end Sys2Proof.Machine
end

