-- ==== Sys2Proof/Laws/Ops.lean ====
section
/-! SUPPORT. For each shared operation, one lemma that says everything it can do; later proofs cite these and do not
unfold the operation. -/

namespace Sys2Proof.Machine

/-! ## The access primitives -/

theorem inRange_iff (s : State) (a : Word) (n : Nat) : s.inRange a n = true ↔ a.toNat + n ≤ s.memSize.val := by
  simp [State.inRange]

theorem memRead_inRange {s : State} {a : Word} {n : Width} (h : s.inRange a n.bytes = true) :
    s.memRead a n = (s.mem.load n a.toNat, s) := if_pos h

theorem memRead_outOfRange {s : State} {a : Word} {n : Width} (h : s.inRange a n.bytes = false) :
    s.memRead a n = (0x00000000#32, s.diag (.readOutOfRange a)) := by simp [State.memRead, h]

theorem memWrite_inRange {s : State} {a : Word} {n : Width} (v : Word) (h : s.inRange a n.bytes = true) :
    s.memWrite a n v = .ok { s with mem := s.mem.writeBytes a.toNat (n.storeBytes v) } := if_pos h

theorem memWrite_outOfRange {s : State} {a : Word} {n : Width} (v : Word) (h : s.inRange a n.bytes = false) :
    s.memWrite a n v = .error (.writeOutOfRange a) := by simp [State.memWrite, h]

/-- Everything a fetch can do. -/
theorem fetch_cases (s : State) :
    (s.inRange s.pc 4 = true ∧ s.fetch = .ok (s.mem.readWord s.pc.toNat)) ∨
    (s.inRange s.pc 4 = false ∧ s.fetch = .error (.fetchOutOfRange s.pc)) := by
  by_cases h : s.inRange s.pc 4 = true
  · exact .inl ⟨h, if_pos h⟩
  · exact .inr ⟨by simpa using h, if_neg h⟩

@[simp] theorem storeBytes_length (n : Width) (v : Word) : (n.storeBytes v).length = n.bytes := by cases n <;> rfl

/-- Everything taking an answer can do. -/
theorem hostIn_some {α : Type} {s t : State} {pick : HostAnswer → Option α} {v : α} (h : s.hostIn pick = some (v, t)) :
    ∃ a rest, s.input = a :: rest ∧ pick a = some v ∧ t = { s with input := rest, pending := none } := by
  unfold State.hostIn at h
  split at h
  · cases h
  · rename_i a rest hin
    split at h
    · cases h
    · rename_i w hw
      cases h
      exact ⟨a, rest, hin, hw, rfl⟩

/-- An answer to the request at the head of the stream is taken. -/
theorem hostIn_of_answer {α : Type} {s : State} {pick : HostAnswer → Option α} {a : HostAnswer} {rest : List HostAnswer}
    {v : α} (hin : s.input = a :: rest) (hv : pick a = some v) :
    s.hostIn pick = some (v, { s with input := rest, pending := none }) := by
  simp [State.hostIn, hin, hv]

/-- No answer is taken exactly when the oldest one, if any, is none to the request. -/
theorem hostIn_none {α : Type} {s : State} {pick : HostAnswer → Option α} :
    s.hostIn pick = none ↔ ∀ a rest, s.input = a :: rest → pick a = none := by
  unfold State.hostIn
  split
  · rename_i hin; simp [hin]
  · rename_i a rest hin
    split <;> rename_i hp <;> simp [hin, hp]

/-- A read whose answer is there takes it. -/
theorem readInput_of_answer {α : Type} {s : State} {k : InputRequest} {pick : HostAnswer → Option α}
    {done : α → State → State} {a : HostAnswer} {rest : List HostAnswer} {v : α} (hin : s.input = a :: rest)
    (hv : pick a = some v) : s.readInput k pick done = .next (done v { s with input := rest, pending := none }) := by
  simp [State.readInput, hostIn_of_answer hin hv]

/-- A read without an answer is not enabled. -/
theorem readInput_waits {α : Type} {s : State} {k : InputRequest} {pick : HostAnswer → Option α}
    {done : α → State → State} (h : ∀ a rest, s.input = a :: rest → pick a = none) :
    s.readInput k pick done = .fault (.awaitingHost k) := by
  simp [State.readInput, hostIn_none.2 h]

/-- Everything a read can do. -/
theorem readInput_cases {α : Type} (s : State) (k : InputRequest) (pick : HostAnswer → Option α)
    (done : α → State → State) :
    ((∀ a rest, s.input = a :: rest → pick a = none) ∧ s.readInput k pick done = .fault (.awaitingHost k)) ∨
    (∃ a rest v, s.input = a :: rest ∧ pick a = some v ∧
      s.readInput k pick done = .next (done v { s with input := rest, pending := none })) := by
  rcases h : s.hostIn pick with _ | ⟨v, t⟩
  · exact .inl ⟨hostIn_none.1 h, readInput_waits (hostIn_none.1 h)⟩
  · obtain ⟨a, rest, hin, hv, -⟩ := hostIn_some h
    exact .inr ⟨a, rest, v, hin, hv, readInput_of_answer hin hv⟩

/-! ## The shared meanings -/

theorem writeBack_eq (s : State) (r : Reg) (v : Word) : writeBack s r v = .next ((s.writeReg r v).advance) := rfl

theorem loadTo_inRange {n : Width} {rt rs : Reg} {imm : Imm} {s : State}
    (h : s.inRange (s.effectiveAddress rs imm) n.bytes = true) :
    loadTo n rt rs imm s = .next ((s.writeReg rt (s.mem.load n (s.effectiveAddress rs imm).toNat)).advance) := by
  rw [loadTo, memRead_inRange h]; rfl

theorem loadTo_outOfRange {n : Width} {rt rs : Reg} {imm : Imm} {s : State}
    (h : s.inRange (s.effectiveAddress rs imm) n.bytes = false) :
    loadTo n rt rs imm s =
      .next (((s.diag (.readOutOfRange (s.effectiveAddress rs imm))).writeReg rt 0x00000000#32).advance) := by
  rw [loadTo, memRead_outOfRange h]; rfl

theorem storeFrom_inRange {n : Width} {rt rs : Reg} {imm : Imm} {s : State}
    (h : s.inRange (s.effectiveAddress rs imm) n.bytes = true) :
    storeFrom n rt rs imm s = .next (State.advance
      { s with mem := s.mem.writeBytes (s.effectiveAddress rs imm).toNat (n.storeBytes (s.readReg rt)) }) := by
  rw [storeFrom, memWrite_inRange _ h]

theorem storeFrom_outOfRange {n : Width} {rt rs : Reg} {imm : Imm} {s : State}
    (h : s.inRange (s.effectiveAddress rs imm) n.bytes = false) :
    storeFrom n rt rs imm s = .next (s.abort (.writeOutOfRange (s.effectiveAddress rs imm))) := by
  rw [storeFrom, memWrite_outOfRange _ h]

theorem branchIf_taken {c : Cond} {rs rt : Reg} {imm : Imm} {s : State}
    (h : c.holds (signed (s.readReg rs)) (signed (s.readReg rt)) = true) :
    branchIf c rs rt imm s = .next (s.jumpTo (branchTarget s.pc imm)) := if_pos h

theorem branchIf_notTaken {c : Cond} {rs rt : Reg} {imm : Imm} {s : State}
    (h : c.holds (signed (s.readReg rs)) (signed (s.readReg rt)) = false) :
    branchIf c rs rt imm s = .next s.advance := by simp [branchIf, h]

/-! ## `read_string`'s writes -/

@[simp] theorem byte_storeBytes (b : Byte) : Width.storeBytes .byte (b.setWidth 32) = [b] := by
  simp only [Width.storeBytes, List.cons.injEq, and_true]
  apply BitVec.eq_of_toNat_eq
  have := b.isLt
  simp only [BitVec.extractLsb'_toNat, BitVec.toNat_setWidth, Nat.shiftRight_zero]
  omega

/-- A byte's address does not wrap while the byte before it exists. -/
theorem next_toNat {s : State} {a : Word} (h : a.toNat < s.memSize.val) : (a + 0x00000001#32).toNat = a.toNat + 1 := by
  have hmax : s.memSize.val ≤ 4294967295 := s.memSize.atMost
  rw [BitVec.toNat_add]
  simp only [BitVec.toNat_ofNat]
  omega

/-- Everything the writes of `read_string` do: with `w` the bytes that exist from `a` on, all are written when there is
room, else the first `w`, and the error names the first address that does not exist. -/
theorem storeString_eq (bs : List Byte) (a : Word) (s : State) :
    State.storeString bs a s =
      ({ s with mem := s.mem.writeBytes a.toNat (bs.take (s.memSize.val - a.toNat)) },
       if bs.length ≤ s.memSize.val - a.toNat then none
       else some (.writeOutOfRange (BitVec.ofNat 32 (max a.toNat s.memSize.val)))) := by
  induction bs generalizing a s with
  | nil => simp [State.storeString, Memory.writeBytes]
  | cons b bs ih =>
    unfold State.storeString
    by_cases h : a.toNat < s.memSize.val
    · have hr : s.inRange a (Width.bytes .byte) = true := by simpa [State.inRange, Width.bytes] using h
      rw [memWrite_inRange _ hr, byte_storeBytes]
      simp only
      rw [ih]
      simp only [next_toNat h]
      have e1 : s.memSize.val - a.toNat = s.memSize.val - (a.toNat + 1) + 1 := by omega
      have e2 : max a.toNat s.memSize.val = max (a.toNat + 1) s.memSize.val := by omega
      rw [e1, e2]
      simp [Memory.writeBytes]
    · have hr : s.inRange a (Width.bytes .byte) = false := by simpa [State.inRange, Width.bytes] using h
      rw [memWrite_outOfRange _ hr]
      have e1 : s.memSize.val - a.toNat = 0 := by omega
      have e2 : max a.toNat s.memSize.val = a.toNat := by omega
      simp [e1, e2, Memory.writeBytes]

/-! ## `print_string`'s loop -/

/-- The loop of `print_string`, unfolded at a zero byte. -/
theorem stringAt_zero {m : Memory} {left a : Nat} (h : m.read a = 0x00#8) : m.stringAt (left + 1) a = ([], false) := by
  simp [Memory.stringAt, h]

/-- The loop of `print_string`, unfolded at another byte. -/
theorem stringAt_succ {m : Memory} {left a : Nat} (h : m.read a ≠ 0x00#8) :
    m.stringAt (left + 1) a = (m.read a :: (m.stringAt left (a + 1)).1, (m.stringAt left (a + 1)).2) := by
  simp [Memory.stringAt, h]

/-- Everything the loop does: its bytes stand in memory and none is zero; it stopped at a zero byte, or at the ceiling. -/
theorem stringAt_spec (m : Memory) (left a : Nat) :
    (∀ k (h : k < (m.stringAt left a).1.length),
      (m.stringAt left a).1[k] = m.read (a + k) ∧ m.read (a + k) ≠ 0x00#8) ∧
    ((m.stringAt left a).2 = false →
      (m.stringAt left a).1.length < left ∧ m.read (a + (m.stringAt left a).1.length) = 0x00#8) ∧
    ((m.stringAt left a).2 = true → (m.stringAt left a).1.length = left) := by
  induction left generalizing a with
  | zero => simp [Memory.stringAt]
  | succ left ih =>
    by_cases h : m.read a = 0x00#8
    · rw [stringAt_zero h]; simp [h]
    · rw [stringAt_succ h]
      obtain ⟨h1, h2, h3⟩ := ih (a + 1)
      refine ⟨fun k hk => ?_, fun hf => ?_, fun ht => ?_⟩
      · cases k with
        | zero => exact ⟨rfl, h⟩
        | succ k =>
          have := h1 k (by simpa using hk)
          rw [show a + 1 + k = a + (k + 1) by omega] at this
          exact this
      · have := h2 hf
        simp only [List.length_cons]
        rw [show a + ((m.stringAt left (a + 1)).1.length + 1) = a + 1 + (m.stringAt left (a + 1)).1.length by omega]
        exact ⟨by omega, this.2⟩
      · simp [h3 ht]

/-! ## The dispatch of `syscall` -/

theorem selector_eq_iff (s : State) (n : Nat) (h : n < 4294967296) :
    s.selector = n ↔ s.readReg Reg.v0 = BitVec.ofNat 32 n := by
  rw [State.selector]
  constructor
  · intro e; apply BitVec.eq_of_toNat_eq; rw [e, BitVec.toNat_ofNat]; omega
  · intro e; rw [e, BitVec.toNat_ofNat]; omega

theorem syscall_printInt {s : State} (h : s.selector = 1) : syscallResult s = .next (sysPrintInt s) := by simp [syscallResult, h]
theorem syscall_printString {s : State} (h : s.selector = 4) : syscallResult s = .next (sysPrintString s) := by
  simp [syscallResult, h]
theorem syscall_readInt {s : State} (h : s.selector = 5) : syscallResult s = sysReadInt s := by simp [syscallResult, h]
theorem syscall_readString {s : State} (h : s.selector = 8) : syscallResult s = sysReadString s := by
  simp [syscallResult, h]
theorem syscall_exit {s : State} (h : s.selector = 10) : syscallResult s = .next (sysExit s) := by simp [syscallResult, h]
theorem syscall_printChar {s : State} (h : s.selector = 11) : syscallResult s = .next (sysPrintChar s) := by
  simp [syscallResult, h]
theorem syscall_readChar {s : State} (h : s.selector = 12) : syscallResult s = sysReadChar s := by
  simp [syscallResult, h]
theorem syscall_exitWithCode {s : State} (h : s.selector = 17) : syscallResult s = .next (sysExitWithCode s) := by
  simp [syscallResult, h]

theorem syscall_unsupported {s : State} (h : s.selector ∉ selectors) : syscallResult s = .next (sysUnsupported s) := by
  simp only [selectors, List.mem_cons, List.not_mem_nil, or_false, not_or] at h
  unfold syscallResult
  split <;> first | rfl | (exfalso; omega)

/-- Everything a selector can be: one of the eight, or any other. -/
theorem selector_cases (s : State) :
    s.selector = 1 ∨ s.selector = 4 ∨ s.selector = 5 ∨ s.selector = 8 ∨ s.selector = 10 ∨ s.selector = 11 ∨
    s.selector = 12 ∨ s.selector = 17 ∨ s.selector ∉ selectors := by
  simp only [selectors, List.mem_cons, List.not_mem_nil, or_false, not_or]
  omega

/-! ## The step -/

/-- Everything a step that answers a next state did (R120, R121, R125). -/
theorem step_cases {s t : State} (h : step s = .next t) :
    s.run = .running ∧
    ((s.inRange s.pc 4 = false ∧ t = s.abort (.fetchOutOfRange s.pc)) ∨
     (s.inRange s.pc 4 = true ∧ s.fetch = .ok (s.mem.readWord s.pc.toNat) ∧
      ((∃ i, decodeWord (s.mem.readWord s.pc.toNat) = .ok i ∧ exec i s = .next t) ∨
       (∃ e, decodeWord (s.mem.readWord s.pc.toNat) = .error e ∧ t = s.skipUnimplemented)))) := by
  unfold step at h
  split at h
  · rename_i hr
    refine ⟨hr, ?_⟩
    rcases fetch_cases s with ⟨hin, hf⟩ | ⟨hin, hf⟩
    · rw [hf] at h
      refine .inr ⟨hin, hf, ?_⟩
      simp only [executeWord] at h
      split at h
      · rename_i i hi
        exact .inl ⟨i, hi, h⟩
      · rename_i e he
        cases h
        exact .inr ⟨e, he, rfl⟩
    · rw [hf] at h
      cases h
      exact .inl ⟨hin, rfl⟩
  · cases h
  · cases h

/-- Everything a step can do when it gives none: the core has stopped, or the instruction at the pc is not enabled. -/
theorem step_fault {s : State} {f : Fault} (h : step s = .fault f) :
    (s.run ≠ .running ∧ f = .notRunning) ∨
    (s.run = .running ∧ s.inRange s.pc 4 = true ∧
      ∃ i, decodeWord (s.mem.readWord s.pc.toNat) = .ok i ∧ exec i s = .fault f) := by
  unfold step at h
  split at h
  · rename_i hr
    rcases fetch_cases s with ⟨hin, hf⟩ | ⟨hin, hf⟩
    · rw [hf] at h
      simp only [executeWord] at h
      split at h
      · rename_i i hi
        exact .inr ⟨hr, hin, i, hi, h⟩
      · cases h
    · rw [hf] at h
      cases h
  · rename_i hr; cases h; exact .inl ⟨by simp [hr], rfl⟩
  · rename_i hr; cases h; exact .inl ⟨by simp [hr], rfl⟩

/-- A Running core whose word at the pc decodes does what the instruction does. -/
theorem step_of_decode {s : State} {i : Instr} (hr : s.run = .running) (hin : s.inRange s.pc 4 = true)
    (hd : decodeWord (s.mem.readWord s.pc.toNat) = .ok i) : step s = exec i s := by
  simp [step, hr, State.fetch, hin, executeWord, hd]

/-! ## `ask` -/

/-- Everything `In(kind)` can do: the request of a waiting core becomes the pending input, and else nothing happens. -/
theorem ask_cases (s : State) :
    (∃ k, step s = .fault (.awaitingHost k) ∧ s.ask = { s with pending := some k }) ∨
    ((∀ k, step s ≠ .fault (.awaitingHost k)) ∧ s.ask = s) := by
  unfold State.ask
  split
  · rename_i k h; exact .inl ⟨k, h, rfl⟩
  · rename_i h; exact .inr ⟨by simp [h], rfl⟩
  · rename_i h; exact .inr ⟨by simp [h], rfl⟩
  · rename_i h; exact .inr ⟨by simp [h], rfl⟩

end Sys2Proof.Machine
end

