-- ==== Sys2Proof/Laws/Exec.lean ====
section
/-! SUPPORT. Inversion: everything an instruction, and each syscall selector, can do when it answers a next state. Later
proofs take a next state apart with these and do not unfold a meaning. -/

namespace Sys2Proof.Machine

/-- The end of `read_string`: the line and its zero byte written, or the abort at the ceiling with the bytes before it
written. -/
theorem fillBuffer_eq (s : State) (bytes : List Byte) :
    s.fillBuffer bytes =
      if (s.readReg Reg.a0).toNat + bytes.length + 1 ≤ s.memSize.val then
        State.advance { s with mem := s.mem.writeBytes (s.readReg Reg.a0).toNat (bytes ++ [0x00#8]) }
      else
        State.abort { s with
          mem := s.mem.writeBytes (s.readReg Reg.a0).toNat
            (bytes.take (s.memSize.val - (s.readReg Reg.a0).toNat)) }
          (.writeOutOfRange (BitVec.ofNat 32 (max (s.readReg Reg.a0).toNat s.memSize.val))) := by
  unfold State.fillBuffer
  simp only [storeString_eq]
  by_cases h : (s.readReg Reg.a0).toNat + bytes.length + 1 ≤ s.memSize.val
  · rw [if_pos (by simp; omega), if_pos h, List.take_of_length_le (by simp; omega)]
  · rw [if_neg (by simp; omega), if_neg h, List.take_append_of_le_length (by omega)]

/-! ## Answers to requests -/

theorem asInt_isSome (a : HostAnswer) : (∃ v, a.asInt = some v) ↔ Answers .int a := by
  cases a <;> simp [HostAnswer.asInt, Answers]

theorem asChar_isSome (a : HostAnswer) : (∃ v, a.asChar = some v) ↔ Answers .char a := by
  cases a <;> simp [HostAnswer.asChar, Answers]

theorem asLine_isSome (limit : Nat) (a : HostAnswer) : (∃ v, a.asLine limit = some v) ↔ Answers (.line limit) a := by
  cases a <;> simp [HostAnswer.asLine, Answers]

/-- The oldest answer, if any, is none to the request: the host has not answered. -/
theorem not_answered {α : Type} {s : State} {k : InputRequest} {pick : HostAnswer → Option α}
    (hp : ∀ a, (∃ v, pick a = some v) ↔ Answers k a) : ¬ s.answered k ↔ ∀ a rest, s.input = a :: rest → pick a = none := by
  simp only [State.answered, ← hp, not_exists, not_and, Option.eq_none_iff_forall_not_mem, Option.mem_def]

/-- An answer to a request Line is a line that keeps its limit. -/
theorem asLine_some {limit : Nat} {a : HostAnswer} {bytes : List Byte} (h : a.asLine limit = some bytes) :
    a = .line bytes ∧ bytes.length ≤ limit := by
  cases a with
  | line bs =>
    simp only [HostAnswer.asLine] at h
    split at h
    · cases h; exact ⟨rfl, by assumption⟩
    · cases h
  | int v => cases h
  | char b => cases h
  | endOfInput v => cases h

/-- Everything a `syscall` can do (R210 to R222). -/
theorem syscall_cases (s : State) :
    (∃ bytes ds, (s.selector = 1 ∨ s.selector = 4 ∨ s.selector = 11) ∧
      syscallResult s = .next (State.advance { s with output := s.output ++ bytes, diags := s.diags ++ ds })) ∨
    (∃ k, s.syscallRequest = some k ∧ ¬ s.answered k ∧ syscallResult s = .fault (.awaitingHost k)) ∨
    (∃ v a rest, (s.selector = 5 ∨ s.selector = 12) ∧ s.input = a :: rest ∧
      syscallResult s = .next ((State.writeReg { s with input := rest, pending := none } Reg.v0 v).advance)) ∨
    (∃ bytes rest, s.selector = 8 ∧ s.lineBound ≥ 1 ∧ s.input = .line bytes :: rest ∧ bytes.length ≤ s.lineLimit ∧
      (s.readReg Reg.a0).toNat + bytes.length + 1 ≤ s.memSize.val ∧
      syscallResult s = .next (State.advance { s with
        input := rest, pending := none,
        mem := s.mem.writeBytes (s.readReg Reg.a0).toNat (bytes ++ [0x00#8]) })) ∨
    (∃ bytes rest, s.selector = 8 ∧ s.lineBound ≥ 1 ∧ s.input = .line bytes :: rest ∧ bytes.length ≤ s.lineLimit ∧
      s.memSize.val < (s.readReg Reg.a0).toNat + bytes.length + 1 ∧
      syscallResult s = .next (State.abort { s with
        input := rest, pending := none,
        mem := s.mem.writeBytes (s.readReg Reg.a0).toNat (bytes.take (s.memSize.val - (s.readReg Reg.a0).toNat)) }
        (.writeOutOfRange (BitVec.ofNat 32 (max (s.readReg Reg.a0).toNat s.memSize.val))))) ∨
    (s.selector = 8 ∧ s.lineBound ≤ 0 ∧ syscallResult s = .next s.advance) ∨
    (∃ c, (s.selector = 10 ∨ s.selector = 17) ∧ syscallResult s = .next (s.halt c)) ∨
    (s.selector ∉ selectors ∧ syscallResult s = .next (s.abort (.unsupportedSyscall (s.readReg Reg.v0)))) := by
  rcases selector_cases s with h | h | h | h | h | h | h | h | h
  · exact .inl ⟨decimal (signed (s.readReg Reg.a0)), [], .inl h, by rw [syscall_printInt h]; simp [sysPrintInt, State.hostOut]⟩
  · refine .inl ?_
    rw [syscall_printString h, sysPrintString]
    split
    · rename_i bytes _
      exact ⟨bytes, [], .inr (.inl h), by simp [State.hostOut]⟩
    · rename_i bytes _
      exact ⟨bytes, _, .inr (.inl h), rfl⟩
  · rw [syscall_readInt h, sysReadInt]
    rcases readInput_cases s .int HostAnswer.asInt fun v t => (t.writeReg Reg.v0 v).advance with
      ⟨hn, e⟩ | ⟨a, rest, v, hi, -, e⟩ <;> rw [e]
    · exact .inr (.inl ⟨.int, by simp [State.syscallRequest, h], (not_answered asInt_isSome).2 hn, rfl⟩)
    · exact .inr (.inr (.inl ⟨v, a, rest, .inl h, hi, rfl⟩))
  · rw [syscall_readString h, sysReadString]
    by_cases hL : s.lineBound ≥ 1
    · rw [if_pos hL]
      rcases readInput_cases s (.line s.lineLimit) (HostAnswer.asLine s.lineLimit) fun bytes t => t.fillBuffer bytes with
        ⟨hn, e⟩ | ⟨a, rest, bytes, hi, ha, e⟩ <;> rw [e]
      · exact .inr (.inl ⟨.line s.lineLimit, by simp [State.syscallRequest, h, hL],
          (not_answered (asLine_isSome _)).2 hn, rfl⟩)
      · obtain ⟨rfl, hlen⟩ := asLine_some ha
        rw [fillBuffer_eq]
        split
        · exact .inr (.inr (.inr (.inl ⟨bytes, rest, h, hL, hi, hlen, by assumption, rfl⟩)))
        · rename_i hc
          exact .inr (.inr (.inr (.inr (.inl ⟨bytes, rest, h, hL, hi, hlen, Nat.lt_of_not_le hc, rfl⟩))))
    · exact .inr (.inr (.inr (.inr (.inr (.inl ⟨h, by omega, by rw [if_neg hL]⟩)))))
  · exact .inr (.inr (.inr (.inr (.inr (.inr (.inl ⟨none, .inl h, syscall_exit h⟩))))))
  · exact .inl ⟨[(s.readReg Reg.a0).extractLsb' 0 8], [], .inr (.inr h), by
      rw [syscall_printChar h]; simp [sysPrintChar, State.hostOut]⟩
  · rw [syscall_readChar h, sysReadChar]
    rcases readInput_cases s .char HostAnswer.asChar fun v t => (t.writeReg Reg.v0 v).advance with
      ⟨hn, e⟩ | ⟨a, rest, v, hi, -, e⟩ <;> rw [e]
    · exact .inr (.inl ⟨.char, by simp [State.syscallRequest, h], (not_answered asChar_isSome).2 hn, rfl⟩)
    · exact .inr (.inr (.inl ⟨v, a, rest, .inr h, hi, rfl⟩))
  · exact .inr (.inr (.inr (.inr (.inr (.inr (.inl ⟨_, .inr h, syscall_exitWithCode h⟩))))))
  · exact .inr (.inr (.inr (.inr (.inr (.inr (.inr ⟨h, syscall_unsupported h⟩))))))

/-- Everything a `syscall` that gives a next state did. -/
theorem syscall_next {s t : State} (h : syscallResult s = .next t) :
    (∃ bytes ds, (s.selector = 1 ∨ s.selector = 4 ∨ s.selector = 11) ∧
      t = State.advance { s with output := s.output ++ bytes, diags := s.diags ++ ds }) ∨
    (∃ v a rest, (s.selector = 5 ∨ s.selector = 12) ∧ s.input = a :: rest ∧
      t = ((State.writeReg { s with input := rest, pending := none } Reg.v0 v).advance)) ∨
    (∃ bytes rest, s.selector = 8 ∧ s.lineBound ≥ 1 ∧ s.input = .line bytes :: rest ∧ bytes.length ≤ s.lineLimit ∧
      (s.readReg Reg.a0).toNat + bytes.length + 1 ≤ s.memSize.val ∧
      t = State.advance { s with
        input := rest, pending := none,
        mem := s.mem.writeBytes (s.readReg Reg.a0).toNat (bytes ++ [0x00#8]) }) ∨
    (∃ bytes rest, s.selector = 8 ∧ s.lineBound ≥ 1 ∧ s.input = .line bytes :: rest ∧ bytes.length ≤ s.lineLimit ∧
      s.memSize.val < (s.readReg Reg.a0).toNat + bytes.length + 1 ∧
      t = State.abort { s with
        input := rest, pending := none,
        mem := s.mem.writeBytes (s.readReg Reg.a0).toNat (bytes.take (s.memSize.val - (s.readReg Reg.a0).toNat)) }
        (.writeOutOfRange (BitVec.ofNat 32 (max (s.readReg Reg.a0).toNat s.memSize.val)))) ∨
    (s.selector = 8 ∧ s.lineBound ≤ 0 ∧ t = s.advance) ∨
    (∃ c, (s.selector = 10 ∨ s.selector = 17) ∧ t = s.halt c) ∨
    (s.selector ∉ selectors ∧ t = s.abort (.unsupportedSyscall (s.readReg Reg.v0))) := by
  rcases syscall_cases s with e | ⟨k, -, -, e⟩ | e
  · simp only [h, Host.Outcome.next.injEq] at e; exact .inl e
  · rw [h] at e; cases e
  · simp only [h, Host.Outcome.next.injEq] at e; exact .inr e

/-- Everything an instruction can do (R124): compute or load into its destination, diagnose an out-of-range load, store or
abort, transfer, link, or act as a `syscall`. -/
theorem exec_cases {i : Instr} {s t : State} (h : exec i s = .next t) :
    (∃ d v, destination i s = some d ∧ mayTransfer i = false ∧ i ≠ .syscall ∧ t = (s.writeReg d v).advance) ∨
    (∃ d a, destination i s = some d ∧ mayTransfer i = false ∧ i ≠ .syscall ∧
      t = ((s.diag (.readOutOfRange a)).writeReg d 0x00000000#32).advance) ∨
    (mayTransfer i = true ∧ i ≠ .syscall ∧ (t = s.advance ∨ ∃ u, t = s.jumpTo u)) ∨
    (∃ target, i = .jal target ∧ t = (s.writeReg Reg.ra (linkValue s.pc)).jumpTo (jumpTarget target)) ∨
    (∃ n rt rs imm, (i = .sw rt rs imm ∧ n = .word ∨ i = .sb rt rs imm ∧ n = .byte) ∧
      (s.effectiveAddress rs imm).toNat + Width.bytes n ≤ s.memSize.val ∧
      t = State.advance { s with mem := s.mem.writeBytes (s.effectiveAddress rs imm).toNat (n.storeBytes (s.readReg rt)) }) ∨
    (∃ n rt rs imm, (i = .sw rt rs imm ∧ n = .word ∨ i = .sb rt rs imm ∧ n = .byte) ∧
      s.memSize.val < (s.effectiveAddress rs imm).toNat + Width.bytes n ∧
      t = s.abort (.writeOutOfRange (s.effectiveAddress rs imm))) ∨
    (i = .syscall ∧ syscallResult s = .next t) := by
  have wb : ∀ {d v}, writeBack s d v = .next t → t = (s.writeReg d v).advance := fun e => by cases e; rfl
  have br : ∀ {c rs rt imm}, branchIf c rs rt imm s = .next t → t = s.advance ∨ ∃ u, t = s.jumpTo u := by
    intro c rs rt imm e
    unfold branchIf at e
    split at e <;> cases e
    · exact .inr ⟨_, rfl⟩
    · exact .inl rfl
  have ld : ∀ {n rt rs imm}, loadTo n rt rs imm s = .next t →
      (∃ v, t = (s.writeReg rt v).advance) ∨
      ∃ a, t = ((s.diag (.readOutOfRange a)).writeReg rt 0x00000000#32).advance := by
    intro n rt rs imm e
    by_cases hr : s.inRange (s.effectiveAddress rs imm) n.bytes = true
    · rw [loadTo_inRange hr] at e; cases e; exact .inl ⟨_, rfl⟩
    · rw [loadTo_outOfRange (by simpa using hr)] at e; cases e; exact .inr ⟨_, rfl⟩
  have st : ∀ {n rt rs imm}, storeFrom n rt rs imm s = .next t →
      ((s.effectiveAddress rs imm).toNat + Width.bytes n ≤ s.memSize.val ∧
        t = State.advance { s with mem := s.mem.writeBytes (s.effectiveAddress rs imm).toNat (n.storeBytes (s.readReg rt)) }) ∨
      (s.memSize.val < (s.effectiveAddress rs imm).toNat + Width.bytes n ∧
        t = s.abort (.writeOutOfRange (s.effectiveAddress rs imm))) := by
    intro n rt rs imm e
    by_cases hr : s.inRange (s.effectiveAddress rs imm) n.bytes = true
    · rw [storeFrom_inRange hr] at e; cases e
      exact .inl ⟨(inRange_iff _ _ _).1 hr, rfl⟩
    · rw [storeFrom_outOfRange (by simpa using hr)] at e; cases e
      exact .inr ⟨by have := (inRange_iff s (s.effectiveAddress rs imm) n.bytes).not.1 hr; omega, rfl⟩
  cases i
  case add => exact .inl ⟨_, _, rfl, rfl, nofun, wb h⟩
  case sub => exact .inl ⟨_, _, rfl, rfl, nofun, wb h⟩
  case and => exact .inl ⟨_, _, rfl, rfl, nofun, wb h⟩
  case or => exact .inl ⟨_, _, rfl, rfl, nofun, wb h⟩
  case nor => exact .inl ⟨_, _, rfl, rfl, nofun, wb h⟩
  case slt => exact .inl ⟨_, _, rfl, rfl, nofun, wb h⟩
  case mul => exact .inl ⟨_, _, rfl, rfl, nofun, wb h⟩
  case sll => exact .inl ⟨_, _, rfl, rfl, nofun, wb h⟩
  case srl => exact .inl ⟨_, _, rfl, rfl, nofun, wb h⟩
  case addi => exact .inl ⟨_, _, rfl, rfl, nofun, wb h⟩
  case slti => exact .inl ⟨_, _, rfl, rfl, nofun, wb h⟩
  case andi => exact .inl ⟨_, _, rfl, rfl, nofun, wb h⟩
  case ori => exact .inl ⟨_, _, rfl, rfl, nofun, wb h⟩
  case lw rt rs imm =>
    rcases ld (n := .word) h with ⟨v, e⟩ | ⟨a, e⟩
    · exact .inl ⟨rt, v, rfl, rfl, nofun, e⟩
    · exact .inr (.inl ⟨rt, a, rfl, rfl, nofun, e⟩)
  case lbu rt rs imm =>
    rcases ld (n := .byte) h with ⟨v, e⟩ | ⟨a, e⟩
    · exact .inl ⟨rt, v, rfl, rfl, nofun, e⟩
    · exact .inr (.inl ⟨rt, a, rfl, rfl, nofun, e⟩)
  case beq => exact .inr (.inr (.inl ⟨rfl, nofun, br (c := .eq) h⟩))
  case bne => exact .inr (.inr (.inl ⟨rfl, nofun, br (c := .ne) h⟩))
  case blt => exact .inr (.inr (.inl ⟨rfl, nofun, br (c := .lt) h⟩))
  case bge => exact .inr (.inr (.inl ⟨rfl, nofun, br (c := .ge) h⟩))
  case j target => cases h; exact .inr (.inr (.inl ⟨rfl, nofun, .inr ⟨_, rfl⟩⟩))
  case jr rs => cases h; exact .inr (.inr (.inl ⟨rfl, nofun, .inr ⟨_, rfl⟩⟩))
  case jal target => cases h; exact .inr (.inr (.inr (.inl ⟨target, rfl, rfl⟩)))
  case sw rt rs imm =>
    rcases st (n := .word) h with ⟨hr, e⟩ | ⟨hr, e⟩
    · exact .inr (.inr (.inr (.inr (.inl ⟨.word, rt, rs, imm, .inl ⟨rfl, rfl⟩, hr, e⟩))))
    · exact .inr (.inr (.inr (.inr (.inr (.inl ⟨.word, rt, rs, imm, .inl ⟨rfl, rfl⟩, hr, e⟩)))))
  case sb rt rs imm =>
    rcases st (n := .byte) h with ⟨hr, e⟩ | ⟨hr, e⟩
    · exact .inr (.inr (.inr (.inr (.inl ⟨.byte, rt, rs, imm, .inr ⟨rfl, rfl⟩, hr, e⟩))))
    · exact .inr (.inr (.inr (.inr (.inr (.inl ⟨.byte, rt, rs, imm, .inr ⟨rfl, rfl⟩, hr, e⟩)))))
  case syscall => exact .inr (.inr (.inr (.inr (.inr (.inr ⟨rfl, h⟩)))))

/-- Execution always answers a next state, but for a `syscall` whose request the host has not answered (R33). -/
theorem exec_enabled (i : Instr) (s : State) :
    (∃ t, exec i s = .next t) ∨
    (i = .syscall ∧ ∃ k, s.syscallRequest = some k ∧ ¬ s.answered k ∧ exec i s = .fault (.awaitingHost k)) := by
  have br : ∀ c rs rt imm, ∃ t, branchIf c rs rt imm s = .next t := by
    intro c rs rt imm; unfold branchIf; split <;> exact ⟨_, rfl⟩
  have st : ∀ n rt rs imm, ∃ t, storeFrom n rt rs imm s = .next t := by
    intro n rt rs imm; unfold storeFrom; split <;> exact ⟨_, rfl⟩
  cases i
  case beq => exact .inl (br _ _ _ _)
  case bne => exact .inl (br _ _ _ _)
  case blt => exact .inl (br _ _ _ _)
  case bge => exact .inl (br _ _ _ _)
  case sw => exact .inl (st _ _ _ _)
  case sb => exact .inl (st _ _ _ _)
  case syscall =>
    rcases syscall_cases s with ⟨_, _, _, e⟩ | ⟨k, hk, hn, e⟩ | ⟨_, _, _, _, _, e⟩ | ⟨_, _, _, _, _, _, _, e⟩ |
      ⟨_, _, _, _, _, _, _, e⟩ | ⟨_, _, e⟩ | ⟨_, _, e⟩ | ⟨_, e⟩
    · exact .inl ⟨_, e⟩
    · exact .inr ⟨rfl, k, hk, hn, e⟩
    all_goals exact .inl ⟨_, e⟩
  all_goals exact .inl ⟨_, rfl⟩

/-- A request the host has answered is no reason to wait: a `syscall` whose request is answered is enabled. -/
theorem syscall_of_answered {s : State} {k : InputRequest} (hk : s.syscallRequest = some k) (ha : s.answered k) :
    ∃ t, exec .syscall s = .next t := by
  rcases exec_enabled .syscall s with h | ⟨-, k', hk', hn, -⟩
  · exact h
  · rw [hk] at hk'; cases hk'; exact absurd ha hn

/-- A `syscall` whose request is unanswered is not enabled. -/
theorem syscall_of_unanswered {s : State} {k : InputRequest} (hk : s.syscallRequest = some k) (hn : ¬ s.answered k) :
    exec .syscall s = .fault (.awaitingHost k) := by
  show syscallResult s = _
  unfold State.syscallRequest at hk
  split at hk
  · rename_i h
    cases hk
    rw [syscall_readInt h]
    exact readInput_waits ((not_answered asInt_isSome).1 hn)
  · rename_i h
    split at hk
    · rename_i hL
      cases hk
      rw [syscall_readString h, sysReadString, if_pos hL]
      exact readInput_waits ((not_answered (asLine_isSome _)).1 hn)
    · cases hk
  · rename_i h
    cases hk
    rw [syscall_readChar h]
    exact readInput_waits ((not_answered asChar_isSome).1 hn)
  · cases hk

/-- A waiting step is that of a Running core at a `syscall` whose request, held as `State.request`, is unanswered. -/
theorem step_waits {s : State} {k : InputRequest} (h : step s = .fault (.awaitingHost k)) :
    s.run = .running ∧ s.request = some k ∧ ¬ s.answered k := by
  rcases step_fault h with ⟨-, e⟩ | ⟨hr, hin, i, hd, he⟩
  · cases e
  · rcases exec_enabled i s with ⟨t, ht⟩ | ⟨rfl, k', hk, hn, e⟩
    · rw [he] at ht; cases ht
    · rw [he] at e; cases e
      exact ⟨hr, by simp [State.request, State.fetch, hin, hd, hk], hn⟩

end Sys2Proof.Machine
end

