-- ==== Sys2Proof/Laws/PerInstr.lean ====
section
/-! SUPPORT. Statements for all instructions, one lemma per constructor. Family `EncodedRow`: the encoder's word of an
instruction is one that the instruction's row of spec/opcode_table.json selects. -/

namespace Sys2Proof.Laws.EncodedRow

/-- The word of `i` matches the row of `i`. -/
def Statement (i : Instr) : Prop := i.row.selects (encode i)

/-- An instruction of op 0, from the fields of its word. -/
theorem of_funct {m : String} {f : BitVec 6} {p w : Word} (hp : p = jType opSpecial (f.setWidth 26))
    (ho : opField w = opSpecial) (hf : functField w = f) : Row.selects ⟨m, p, specialMask⟩ w :=
  (selects_specialMask hp w).2 ⟨ho, hf⟩

/-- Any other instruction, from the opcode of its word. -/
theorem of_op {m : String} {op : BitVec 6} {p w : Word} (hp : p = jType op 0#26) (ho : opField w = op) :
    Row.selects ⟨m, p, opMask⟩ w := (selects_opMask hp w).2 ho

theorem add (rd rs rt : Reg) : Statement (.add rd rs rt) :=
  of_funct (f := fnAdd) rfl (opField_rType ..) (functField_rType ..)

theorem sub (rd rs rt : Reg) : Statement (.sub rd rs rt) :=
  of_funct (f := fnSub) rfl (opField_rType ..) (functField_rType ..)

theorem and (rd rs rt : Reg) : Statement (.and rd rs rt) :=
  of_funct (f := fnAnd) rfl (opField_rType ..) (functField_rType ..)

theorem or (rd rs rt : Reg) : Statement (.or rd rs rt) :=
  of_funct (f := fnOr) rfl (opField_rType ..) (functField_rType ..)

theorem nor (rd rs rt : Reg) : Statement (.nor rd rs rt) :=
  of_funct (f := fnNor) rfl (opField_rType ..) (functField_rType ..)

theorem slt (rd rs rt : Reg) : Statement (.slt rd rs rt) :=
  of_funct (f := fnSlt) rfl (opField_rType ..) (functField_rType ..)

theorem mul (rd rs rt : Reg) : Statement (.mul rd rs rt) :=
  of_funct (f := fnMul) rfl (opField_rType ..) (functField_rType ..)

theorem sll (rd rt : Reg) (shamt : Nat) : Statement (.sll rd rt shamt) :=
  of_funct (f := fnSll) rfl (opField_rType ..) (functField_rType ..)

theorem srl (rd rt : Reg) (shamt : Nat) : Statement (.srl rd rt shamt) :=
  of_funct (f := fnSrl) rfl (opField_rType ..) (functField_rType ..)

theorem jr (rs : Reg) : Statement (.jr rs) :=
  of_funct (f := fnJr) rfl (opField_rType ..) (functField_rType ..)

theorem syscall : Statement .syscall :=
  of_funct (f := fnSyscall) rfl (opField_rType ..) (functField_rType ..)

theorem addi (rt rs : Reg) (imm : Imm) : Statement (.addi rt rs imm) :=
  of_op (op := opAddi) rfl (opField_iType ..)

theorem slti (rt rs : Reg) (imm : Imm) : Statement (.slti rt rs imm) :=
  of_op (op := opSlti) rfl (opField_iType ..)

theorem andi (rt rs : Reg) (imm : Imm) : Statement (.andi rt rs imm) :=
  of_op (op := opAndi) rfl (opField_iType ..)

theorem ori (rt rs : Reg) (imm : Imm) : Statement (.ori rt rs imm) :=
  of_op (op := opOri) rfl (opField_iType ..)

theorem beq (rs rt : Reg) (imm : Imm) : Statement (.beq rs rt imm) :=
  of_op (op := opBeq) rfl (opField_iType ..)

theorem bne (rs rt : Reg) (imm : Imm) : Statement (.bne rs rt imm) :=
  of_op (op := opBne) rfl (opField_iType ..)

theorem blt (rs rt : Reg) (imm : Imm) : Statement (.blt rs rt imm) :=
  of_op (op := opBlt) rfl (opField_iType ..)

theorem bge (rs rt : Reg) (imm : Imm) : Statement (.bge rs rt imm) :=
  of_op (op := opBge) rfl (opField_iType ..)

theorem lw (rt rs : Reg) (imm : Imm) : Statement (.lw rt rs imm) :=
  of_op (op := opLw) rfl (opField_iType ..)

theorem lbu (rt rs : Reg) (imm : Imm) : Statement (.lbu rt rs imm) :=
  of_op (op := opLbu) rfl (opField_iType ..)

theorem sw (rt rs : Reg) (imm : Imm) : Statement (.sw rt rs imm) :=
  of_op (op := opSw) rfl (opField_iType ..)

theorem sb (rt rs : Reg) (imm : Imm) : Statement (.sb rt rs imm) :=
  of_op (op := opSb) rfl (opField_iType ..)

theorem j (target : Target) : Statement (.j target) :=
  of_op (op := opJ) rfl (opField_jType ..)

theorem jal (target : Target) : Statement (.jal target) :=
  of_op (op := opJal) rfl (opField_jType ..)

end Sys2Proof.Laws.EncodedRow
end

