-- ==== Sys2Proof/Tests/Slice0.lean ====
section
/-! SUPPORT. The model's own tests. Expected results come from spec/95_test_vectors.md (the row is named) or are written out
by hand from the rules; none was read off the model. The last part holds a witness for the hypotheses of every statement. -/

namespace Sys2Proof.Tests

open Sys2Proof.Machine

/-! ## Helpers -/

/-- The MEM_SIZE of most vectors. -/
def size100 : Config.MemSize := ⟨0x100, by decide, by decide⟩

/-- The MEM_SIZE of the load and store vectors. -/
def size200 : Config.MemSize := ⟨0x200, by decide, by decide⟩

/-- The MEM_SIZE of the branch vectors. -/
def size400 : Config.MemSize := ⟨0x400, by decide, by decide⟩

/-- A small machine. -/
def machine (size : Config.MemSize) (pc : Word) (regs : List (Reg × Word)) (mem : Memory) : State :=
  regs.foldl (fun s p => s.writeReg p.1 p.2) { State.reset with memSize := size, pc := pc, mem := mem }

/-- The next state, if there is one. -/
def nextOf : Host.Outcome State Fault Refusal → Option State
  | .next t => some t
  | .fault _ => none
  | .refused _ => none

/-- One step on a word placed at the pc. -/
def stepOn (w : Nat) (s : State) : Option State := nextOf (step (s.withFetchWord 32 w))

/-- One execution. -/
def execOn (i : Instr) (s : State) : Option State := nextOf (exec i s)

/-! ## Ill-formed terms are refused -/

theorem test_sll_shamt_32_is_ill_formed : (Instr.sll 10 8 32).wellFormed = false := by decide
theorem test_srl_shamt_32_is_ill_formed : (Instr.srl 10 8 32).wellFormed = false := by decide
theorem test_sll_shamt_31_is_well_formed : (Instr.sll 10 8 31).wellFormed = true := by decide

/-! ## Decoding: words written out from R81 to R87, fields as op, rs, rt, rd, shamt, funct or op, rs, rt, imm -/

theorem test_decode_add : decodeWord (0b000000#6 ++ 8#5 ++ 9#5 ++ 10#5 ++ 0#5 ++ 0b100000#6) = .ok (.add 10 8 9) := by decide
theorem test_decode_sub : decodeWord (0b000000#6 ++ 8#5 ++ 9#5 ++ 10#5 ++ 0#5 ++ 0b100010#6) = .ok (.sub 10 8 9) := by decide
theorem test_decode_and : decodeWord (0b000000#6 ++ 8#5 ++ 9#5 ++ 10#5 ++ 0#5 ++ 0b100100#6) = .ok (.and 10 8 9) := by decide
theorem test_decode_or : decodeWord (0b000000#6 ++ 8#5 ++ 9#5 ++ 10#5 ++ 0#5 ++ 0b100101#6) = .ok (.or 10 8 9) := by decide
theorem test_decode_nor : decodeWord (0b000000#6 ++ 8#5 ++ 9#5 ++ 10#5 ++ 0#5 ++ 0b100111#6) = .ok (.nor 10 8 9) := by decide
theorem test_decode_slt : decodeWord (0b000000#6 ++ 8#5 ++ 9#5 ++ 10#5 ++ 0#5 ++ 0b101010#6) = .ok (.slt 10 8 9) := by decide
theorem test_decode_mul : decodeWord (0b000000#6 ++ 8#5 ++ 9#5 ++ 10#5 ++ 0#5 ++ 0b011000#6) = .ok (.mul 10 8 9) := by decide
theorem test_decode_sll : decodeWord (0b000000#6 ++ 0#5 ++ 8#5 ++ 10#5 ++ 31#5 ++ 0b000000#6) = .ok (.sll 10 8 31) := by decide
theorem test_decode_srl : decodeWord (0b000000#6 ++ 0#5 ++ 8#5 ++ 10#5 ++ 4#5 ++ 0b000010#6) = .ok (.srl 10 8 4) := by decide
theorem test_decode_jr : decodeWord (0b000000#6 ++ 31#5 ++ 0#5 ++ 0#5 ++ 0#5 ++ 0b001000#6) = .ok (.jr 31) := by decide
theorem test_decode_syscall : decodeWord (0b000000#6 ++ 0#5 ++ 0#5 ++ 0#5 ++ 0#5 ++ 0b001100#6) = .ok .syscall := by decide
theorem test_decode_addi : decodeWord (0b001000#6 ++ 8#5 ++ 10#5 ++ 0xFFFE#16) = .ok (.addi 10 8 0xFFFE#16) := by decide
theorem test_decode_slti : decodeWord (0b001010#6 ++ 8#5 ++ 10#5 ++ 0xFFFE#16) = .ok (.slti 10 8 0xFFFE#16) := by decide
theorem test_decode_andi : decodeWord (0b001100#6 ++ 8#5 ++ 10#5 ++ 0xFFFE#16) = .ok (.andi 10 8 0xFFFE#16) := by decide
theorem test_decode_ori : decodeWord (0b001101#6 ++ 8#5 ++ 10#5 ++ 0xFFFE#16) = .ok (.ori 10 8 0xFFFE#16) := by decide
theorem test_decode_beq : decodeWord (0b000100#6 ++ 8#5 ++ 9#5 ++ 0x0003#16) = .ok (.beq 8 9 0x0003#16) := by decide
theorem test_decode_bne : decodeWord (0b000101#6 ++ 8#5 ++ 9#5 ++ 0x0003#16) = .ok (.bne 8 9 0x0003#16) := by decide
theorem test_decode_blt : decodeWord (0b010100#6 ++ 8#5 ++ 9#5 ++ 0x0003#16) = .ok (.blt 8 9 0x0003#16) := by decide
theorem test_decode_bge : decodeWord (0b010101#6 ++ 8#5 ++ 9#5 ++ 0x0003#16) = .ok (.bge 8 9 0x0003#16) := by decide
theorem test_decode_lw : decodeWord (0b100011#6 ++ 8#5 ++ 10#5 ++ 0x0004#16) = .ok (.lw 10 8 0x0004#16) := by decide
theorem test_decode_lbu : decodeWord (0b100100#6 ++ 8#5 ++ 10#5 ++ 0x0004#16) = .ok (.lbu 10 8 0x0004#16) := by decide
theorem test_decode_sw : decodeWord (0b101011#6 ++ 8#5 ++ 9#5 ++ 0x0004#16) = .ok (.sw 9 8 0x0004#16) := by decide
theorem test_decode_sb : decodeWord (0b101000#6 ++ 8#5 ++ 9#5 ++ 0x0004#16) = .ok (.sb 9 8 0x0004#16) := by decide
theorem test_decode_j : decodeWord (0b000010#6 ++ 0x2000040#26) = .ok (.j 0x2000040#26) := by decide
theorem test_decode_jal : decodeWord (0b000011#6 ++ 0x2000040#26) = .ok (.jal 0x2000040#26) := by decide

/-- Vectors C1 and C2: an unknown opcode and an unknown function are rejected by name. -/
theorem test_decode_rejects :
    decodeWord 0xFC000000#32 = .error (.unknownOpcode 0x3F#6) ∧
    decodeWord 0x01095001#32 = .error (.unknownFunct 0x01#6) ∧ decode [0x00#8, 0x00#8, 0x00#8] = .error .truncated := by
  decide

/-- Vector C3 and S17: unused fields are ignored. -/
theorem test_decode_ignores_unused_fields :
    decodeWord 0x01095060#32 = .ok (.add 10 8 9) ∧ decodeWord 0x03FFFFCC#32 = .ok .syscall := by decide

/-- Words of program P3 and of the worked examples, from their instructions. -/
theorem test_encode_words :
    encode (.add 10 8 9) = 0x01095020#32 ∧ encode (.sll 10 8 4) = 0x00085100#32 ∧
    encode (.addi 10 8 0xFFFF#16) = 0x210AFFFF#32 ∧ encode (.blt 9 11 0xFFFC#16) = 0x512BFFFC#32 ∧
    encode (.sw 8 13 0x0000#16) = 0xADA80000#32 ∧ encode (.jal 0x0000018#26) = 0x0C000018#32 ∧
    encode .syscall = 0x0000000C#32 := by decide

/-- The first word's bytes as the table numbers them, and an opcode the table lacks. -/
theorem test_decodeTableWord :
    decodeTableWord 32 0x8D0A0004 = some (.lw 10 8 0x0004#16) ∧ decodeTableWord 32 0xFC000000 = none := by decide

/-- No two rows of the opcode table select one word: they differ in a bit that both fix. -/
theorem test_rows_do_not_overlap :
    opcodeTable.Pairwise (fun r q => r.pattern &&& q.mask ≠ q.pattern &&& r.mask) := by decide

theorem test_table_has_25_rows : opcodeTable.length = 25 := by decide

/-! ## ALU (95, section 2.1) -/

theorem test_A1_add_wraps :
    (stepOn 0x01095020 (machine size100 0#32 [(8, 0x7FFFFFFF#32), (9, 1#32)] [])).map
      (fun t => (t.readReg 10, t.pc, t.run, t.diags)) = some (0x80000000#32, 4#32, .running, []) := by decide
theorem test_A3_sub_wraps :
    (stepOn 0x01095022 (machine size100 0#32 [(8, 0x80000000#32), (9, 1#32)] [])).map (fun t => t.readReg 10) =
      some 0x7FFFFFFF#32 := by decide
theorem test_A5_and :
    (stepOn 0x01095024 (machine size100 0#32 [(8, 0xF0F0F0F0#32), (9, 0xFF00FF00#32)] [])).map (fun t => t.readReg 10) =
      some 0xF000F000#32 := by decide
theorem test_A6_or :
    (stepOn 0x01095025 (machine size100 0#32 [(8, 0xF0F0F0F0#32), (9, 0x0F0F0000#32)] [])).map (fun t => t.readReg 10) =
      some 0xFFFFF0F0#32 := by decide
theorem test_A7_nor :
    (stepOn 0x01095027 (machine size100 0#32 [] [])).map (fun t => t.readReg 10) = some 0xFFFFFFFF#32 := by decide
theorem test_A8_slt_signed :
    (stepOn 0x0109502A (machine size100 0#32 [(8, 0xFFFFFFFF#32), (9, 1#32)] [])).map (fun t => t.readReg 10) =
      some 1#32 := by decide
theorem test_A9_slt_not_less :
    (stepOn 0x0109502A (machine size100 0#32 [(8, 1#32), (9, 0xFFFFFFFF#32), (10, 7#32)] [])).map
      (fun t => t.readReg 10) = some 0#32 := by decide
theorem test_A13_mul_least :
    (stepOn 0x01095018 (machine size100 0#32 [(8, 0x80000000#32), (9, 0xFFFFFFFF#32)] [])).map (fun t => t.readReg 10) =
      some 0x80000000#32 := by decide
theorem test_A14_mul :
    (stepOn 0x01095018 (machine size100 0#32 [(8, 7#32), (9, 0xFFFFFFFA#32)] [])).map (fun t => t.readReg 10) =
      some 0xFFFFFFD6#32 := by decide
theorem test_A15_sll :
    (stepOn 0x00085100 (machine size100 0#32 [(8, 0x80000001#32)] [])).map (fun t => t.readReg 10) =
      some 0x00000010#32 := by decide
theorem test_A16_sll_31 :
    (stepOn 0x000857C0 (machine size100 0#32 [(8, 3#32)] [])).map (fun t => t.readReg 10) = some 0x80000000#32 := by decide
theorem test_A17_srl_logical :
    (stepOn 0x00085102 (machine size100 0#32 [(8, 0x80000000#32)] [])).map (fun t => t.readReg 10) =
      some 0x08000000#32 := by decide
theorem test_A21_addi_sign_extends :
    (stepOn 0x210A8000 (machine size100 0#32 [] [])).map (fun t => t.readReg 10) = some 0xFFFF8000#32 := by decide
theorem test_addi_to_zero_is_discarded :
    (stepOn 0x20000005 (machine size100 0#32 [] [])).map (fun t => (t.readReg 0, t.pc)) = some (0#32, 4#32) := by decide
theorem test_A22_slti_signed :
    (stepOn 0x290AFFFF (machine size100 0#32 [(8, 0xFFFFFFFE#32)] [])).map (fun t => t.readReg 10) = some 1#32 := by decide
theorem test_A24_andi_zero_extends :
    (stepOn 0x310AFFFF (machine size100 0#32 [(8, 0xFFFFFFFF#32)] [])).map (fun t => t.readReg 10) =
      some 0x0000FFFF#32 := by decide
theorem test_A25_ori_zero_extends :
    (stepOn 0x350A8000 (machine size100 0#32 [(8, 0x12340000#32)] [])).map (fun t => t.readReg 10) =
      some 0x12348000#32 := by decide

/-! ## Branches and jumps (95, section 2.2) -/

theorem test_B1_beq_taken :
    (stepOn 0x11090003 (machine size400 0x100#32 [(8, 5#32), (9, 5#32)] [])).map (·.pc) = some 0x110#32 := by decide
theorem test_B2_beq_not_taken :
    (stepOn 0x11090003 (machine size400 0x100#32 [(8, 5#32), (9, 6#32)] [])).map (·.pc) = some 0x104#32 := by decide
theorem test_B3_bne_backward :
    (stepOn 0x1509FFFE (machine size400 0x100#32 [(8, 5#32), (9, 6#32)] [])).map (·.pc) = some 0x0FC#32 := by decide
theorem test_B6_blt_not_taken :
    (stepOn 0x51090003 (machine size400 0x100#32 [(8, 2#32), (9, 1#32)] [])).map (·.pc) = some 0x104#32 := by decide
theorem test_B7_blt_signed :
    (stepOn 0x51090003 (machine size400 0x100#32 [(8, 0xFFFFFFFF#32)] [])).map (·.pc) = some 0x110#32 := by decide
theorem test_B8_bge_signed :
    (stepOn 0x55090005 (machine size400 0x100#32 [(8, 0x80000000#32)] [])).map (·.pc) = some 0x104#32 := by decide
theorem test_B9_bge_equal_to_itself :
    (stepOn 0x5509FFFF (machine size400 0x100#32 [(8, 0xFFFFFFFF#32), (9, 0xFFFFFFFF#32)] [])).map (·.pc) =
      some 0x100#32 := by decide
theorem test_B11_j_unshifted :
    (stepOn 0x08000040 (machine size400 0x100#32 [] [])).map (·.pc) = some 0x040#32 := by decide
theorem test_B16_jal_largest_target :
    (stepOn 0x0FFFFFFC (machine size400 0x100#32 [] [])).map (fun t => (t.pc, t.readReg 31)) =
      some (0x03FFFFFC#32, 0x108#32) := by decide
theorem test_B14_jr_misaligned :
    (stepOn 0x01000008 (machine size400 0x100#32 [(8, 0x42#32)] [])).map (·.pc) = some 0x042#32 := by decide

/-! ## Loads and stores (95, section 2.3) -/

/-- The memory of the vectors: 0x12345678 little-endian at 0x100. -/
def word100 : Memory := [(0x100, 0x78#8), (0x101, 0x56#8), (0x102, 0x34#8), (0x103, 0x12#8)]

theorem test_M2_lw_negative_displacement :
    (stepOn 0x8D0AFFFC (machine size200 0#32 [(8, 0x104#32)] word100)).map (fun t => t.readReg 10) =
      some 0x12345678#32 := by decide
theorem test_M5_lw_straddles_the_ceiling :
    (stepOn 0x8D0A0000 (machine size200 0#32 [(8, 0x1FE#32), (10, 5#32)] word100)).map
      (fun t => (t.readReg 10, t.diags, t.pc, t.run)) =
      some (0#32, [.readOutOfRange 0x1FE#32], 4#32, .running) := by decide
theorem test_M3_lbu :
    (stepOn 0x910A0003 (machine size200 0#32 [(8, 0x100#32)] word100)).map (fun t => t.readReg 10) = some 0x12#32 := by
  decide
theorem test_M4_lbu_last_byte_zero_extends :
    (stepOn 0x910A0000 (machine size200 0#32 [(8, 0x1FF#32)] [(0x1FF, 0x9A#8)])).map (fun t => t.readReg 10) =
      some 0x9A#32 := by decide
theorem test_M6_sw_little_endian :
    (stepOn 0xAD090000 (machine size200 0#32 [(8, 0x100#32), (9, 0xAABBCCDD#32)] word100)).map
      (fun t => [0x100, 0x101, 0x102, 0x103].map t.mem.read) = some [0xDD#8, 0xCC#8, 0xBB#8, 0xAA#8] := by decide
theorem test_M8_sw_aborts :
    (stepOn 0xAD090000 (machine size200 0#32 [(8, 0x1FD#32), (9, 1#32)] word100)).map
      (fun t => (t.run, t.pc, t.mem.read 0x1FD)) = some (.aborted (.writeOutOfRange 0x1FD#32), 0#32, 0#8) := by decide
theorem test_M7_sb_low_byte :
    (stepOn 0xA1090001 (machine size200 0#32 [(8, 0x100#32), (9, 0xAABBCCDD#32)] word100)).map
      (fun t => [0x100, 0x101, 0x102, 0x103].map t.mem.read) = some [0x78#8, 0xDD#8, 0x34#8, 0x12#8] := by decide
theorem test_M9_sb_wraps_to_the_top :
    (stepOn 0xA009FFFF (machine size200 0#32 [] [])).map (fun t => (t.run, t.pc)) =
      some (.aborted (.writeOutOfRange 0xFFFFFFFF#32), 0#32) := by decide

/-- Writing the unlisted value removes the entry: equal memories are equal data. -/
theorem test_write_is_canonical : Memory.write (Memory.write [] 5 0x07#8) 5 0x00#8 = [] := by decide

/-! ## Syscalls (95, section 2.4) -/

/-- A machine about to run a `syscall` at 0x0C. -/
def atSyscall (regs : List (Reg × Word)) (mem : Memory) (input : List HostAnswer) : State :=
  { machine size100 0x0C#32 regs mem with input := input }

theorem test_S2_print_least_int :
    (stepOn 0xC (atSyscall [(2, 1#32), (4, 0x80000000#32)] [] [])).map (fun t => (t.output, t.pc)) =
      some ([0x2D#8, 0x32#8, 0x31#8, 0x34#8, 0x37#8, 0x34#8, 0x38#8, 0x33#8, 0x36#8, 0x34#8, 0x38#8], 0x10#32) := by decide
theorem test_S3_print_zero :
    (stepOn 0xC (atSyscall [(2, 1#32)] [] [])).map (·.output) = some [0x30#8] := by decide
theorem test_S4_print_string :
    (stepOn 0xC (atSyscall [(2, 4#32)] [(0, 0x68#8), (1, 0x69#8)] [])).map (fun t => (t.output, t.diags)) =
      some ([0x68#8, 0x69#8], []) := by decide
theorem test_S5_print_string_into_the_ceiling :
    (stepOn 0xC (atSyscall [(2, 4#32), (4, 0xFE#32)] [(0xFE, 0x41#8), (0xFF, 0x42#8)] [])).map
      (fun t => (t.output, t.diags, t.pc)) = some ([0x41#8, 0x42#8], [.readOutOfRange 0x100#32], 0x10#32) := by decide
theorem test_S6_read_int :
    (stepOn 0xC (atSyscall [(2, 5#32)] [] [.int 42#32])).map (fun t => (t.readReg 2, t.input)) =
      some (0x2A#32, []) := by decide
/-- R33, R212: no step without an answer. -/
theorem test_read_int_waits : stepOn 0xC (atSyscall [(2, 5#32)] [] []) = none := by decide
/-- R35: the request reaches the host, and the core stays where it is. -/
theorem test_ask_holds_the_request :
    (fun t : State => (t.pending, t.pc, t.run)) (atSyscall [(2, 8#32), (5, 4#32)] [(0x0C, 0x0C#8)] []).ask =
      (some (.line 3), 0x0C#32, .running) := by decide
theorem test_S7_read_string :
    (stepOn 0xC (atSyscall [(2, 8#32), (4, 0x40#32), (5, 4#32)] [(0x43, 0x55#8)]
      [.line [0x61#8, 0x62#8, 0x63#8]])).map (fun t => [0x40, 0x41, 0x42, 0x43].map t.mem.read) =
      some [0x61#8, 0x62#8, 0x63#8, 0x00#8] := by decide
theorem test_S10_read_string_aborts :
    (stepOn 0xC (atSyscall [(2, 8#32), (4, 0xFE#32), (5, 8#32)] [] [.line [0x61#8, 0x62#8, 0x63#8]])).map
      (fun t => (t.mem.read 0xFE, t.mem.read 0xFF, t.run, t.pc)) =
      some (0x61#8, 0x62#8, .aborted (.writeOutOfRange 0x100#32), 0x0C#32) := by decide
theorem test_S11_exit :
    (stepOn 0xC (atSyscall [(2, 10#32)] [] [])).map (fun t => (t.endReport, t.pc)) =
      some (some (.halted none), 0x10#32) := by decide
theorem test_S12_print_char_low_byte :
    (stepOn 0xC (atSyscall [(2, 11#32), (4, 0x141#32)] [] [])).map (·.output) = some [0x41#8] := by decide
theorem test_S13_read_char :
    (stepOn 0xC (atSyscall [(2, 12#32)] [] [.char 0x7A#8])).map (fun t => t.readReg 2) = some 0x7A#32 := by decide
theorem test_S14_exit_with_code :
    (stepOn 0xC (atSyscall [(2, 17#32), (4, 3#32)] [] [])).map (fun t => (t.endReport, t.pc)) =
      some (some (.halted (some 3)), 0x10#32) := by decide
theorem test_S16_negative_selector_aborts :
    (stepOn 0xC (atSyscall [(2, 0xFFFFFFFF#32)] [] [])).map (fun t => (t.run, t.pc)) =
      some (.aborted (.unsupportedSyscall 0xFFFFFFFF#32), 0x0C#32) := by decide

/-! ## The cycle (95, section 2.5) and images -/

theorem test_C2_unknown_funct_is_skipped :
    (stepOn 0x01095001 (machine size100 0#32 [(8, 1#32), (9, 2#32)] [])).map
      (fun t => (t.diags, t.pc, t.readReg 10)) = some ([.unimplementedOpcode 0#32], 4#32, 0#32) := by decide
theorem test_C6_fetch_straddles_the_ceiling :
    (nextOf (step (machine size100 0xFE#32 [] []))).map (fun t => (t.run, t.pc)) =
      some (.aborted (.fetchOutOfRange 0xFE#32), 0xFE#32) := by decide
theorem test_C8_halted_has_no_step : nextOf (step { State.reset with run := .halted }) = none := by decide

/-- R94: `.asciiz "hi"` and a word, and R96: the branch field of program P3. -/
theorem test_image :
    imageOf [.asciiz [0x68#8, 0x69#8], .word [0x12345678#32], .space 1] =
      [some 0x68#8, some 0x69#8, some 0x00#8, some 0x78#8, some 0x56#8, some 0x34#8, some 0x12#8, none] ∧
    branchField 0x18#32 0x0C#32 = 0xFFFC#16 ∧
    entryPoint [.dataHeader, .asciiz [0x68#8, 0x69#8], .textHeader, .instr .syscall] = some 3 ∧
    labelAddress "main" [.asciiz [0x68#8, 0x69#8], .label "main", .instr .syscall] = some 3 := by decide

/-! ## Witnesses: for every statement with hypotheses, states and operands that meet them, at the boundary of each clause -/

/-- Execution or a step that gives a next state with a decidable property. -/
theorem next_with {o : Host.Outcome State Fault Refusal} {P : State → Bool} (h : (nextOf o).any P = true) :
    ∃ t, o = .next t ∧ P t = true := by
  cases o with
  | next t => exact ⟨t, rfl, h⟩
  | fault r => cases h
  | refused r => cases h

/-- A launch of an image that fills memory, and of one a byte too long. -/
def launchOf (n : Nat) : Launch :=
  ⟨⟨4, by decide, by decide⟩, List.replicate n (some 0x00#8), 0#32, Vector.replicate 32 1#32, [1#8, 2#8], []⟩

theorem witness_LaunchSetsResetValues_fits : (launchOf 4).image.length ≤ (launchOf 4).memSize.val := by decide
theorem witness_LaunchSetsResetValues_byte : (launchOf 4).image[3]? = some (some 0x00#8) := by decide
theorem witness_LaunchSetsResetValues_draw :
    1 < (launchOf 1).memSize.val ∧ (launchOf 1).image[1]?.join = none ∧ (launchOf 1).memDraws[1]? = some 2#8 := by decide
theorem witness_LaunchSetsResetValues_too_long : (launchOf 5).memSize.val < (launchOf 5).image.length := by decide

theorem witness_ZeroRegisterIsHardWired : (31 : Reg) ≠ Reg.zero := by decide

theorem witness_OnlyDestinationRegisterChanges :
    ∃ t, exec (.jal 0x40#26) State.reset = .next t ∧ destination (.jal 0x40#26) State.reset ≠ some (30 : Reg) :=
  ⟨_, rfl, by decide⟩

/-- The farthest targets forward and backward, with both comparisons. -/
theorem witness_BranchesReachTheirLabel :
    ∃ (s : State) (a b : Word),
      (a - (s.pc + 0x00000004#32)).toInt = 131068 ∧ (b - (s.pc + 0x00000004#32)).toInt = -131072 ∧
      s.readReg 8 = s.readReg 9 ∧ s.readReg 8 ≠ s.readReg 10 ∧
      (s.readReg 8).toInt < (s.readReg 10).toInt ∧ (s.readReg 10).toInt ≥ (s.readReg 8).toInt :=
  ⟨machine size400 0x40000#32 [(10, 1#32)] [], 0x60000#32, 0x20004#32, by decide⟩

theorem witness_JumpsReachTheirTarget : (0x03FFFFFF#32).toNat < 67108864 := by decide

/-- The last word in range, the first out of range, the last byte, the first byte beyond. -/
theorem witness_loads_and_stores :
    ∃ s : State, s.mem.wf = true ∧
      (s.readReg 8 + (0xFFFC#16).signExtend 32).toNat + 4 = s.memSize.val ∧
      s.memSize.val < (s.readReg 8 + (0xFFFD#16).signExtend 32).toNat + 4 ∧
      (s.readReg 8 + (0xFFFF#16).signExtend 32).toNat + 1 = s.memSize.val ∧
      s.memSize.val = (s.readReg 8 + (0x0000#16).signExtend 32).toNat :=
  ⟨machine size200 0#32 [(8, 0x200#32)] word100, by decide⟩

theorem witness_StoresInRange_and_OutOfRange :
    ∃ s : State, s.mem.wf = true ∧ (s.effectiveAddress 8 0xFFFC#16).toNat + 4 ≤ s.memSize.val ∧
      (s.effectiveAddress 8 0xFFFF#16).toNat < s.memSize.val ∧
      s.memSize.val < (s.effectiveAddress 8 0xFFFD#16).toNat + 4 ∧
      s.memSize.val ≤ (s.effectiveAddress 8 0x0000#16).toNat :=
  ⟨machine size200 0#32 [(8, 0x200#32)] word100, by decide⟩

/-- The store and the loads at its word and at its last byte, through another register. -/
theorem witness_LoadsSeeAWordStore :
    ∃ s t : State, s.mem.wf = true ∧ (s.effectiveAddress 8 0x0000#16).toNat + 4 ≤ s.memSize.val ∧
      exec (.sw 9 8 0x0000#16) s = .next t ∧ t.effectiveAddress 0 0x01FC#16 = s.effectiveAddress 8 0x0000#16 ∧
      t.effectiveAddress 0 0x01FF#16 = s.effectiveAddress 8 0x0000#16 + BitVec.ofNat 32 3 := by
  refine ⟨machine size200 0#32 [(8, 0x1FC#32), (9, 0xAABBCCDD#32)] word100, ?_⟩
  obtain ⟨t, h, hp⟩ := next_with (o := exec (.sw 9 8 0x0000#16) (machine size200 0#32 [(8, 0x1FC#32), (9, 0xAABBCCDD#32)] word100))
    (P := fun t => decide (t.effectiveAddress 0 0x01FC#16 = 0x1FC#32 ∧ t.effectiveAddress 0 0x01FF#16 = 0x1FF#32)) (by decide)
  have hp := of_decide_eq_true hp
  exact ⟨t, by decide, by decide, h, hp.1.trans (by decide), hp.2.trans (by decide)⟩

theorem witness_WordLoadSeesAByteStore :
    ∃ (s t : State), s.mem.wf = true ∧ 3 < 4 ∧ (0x1FC#32).toNat + 4 ≤ s.memSize.val ∧
      s.effectiveAddress 8 0x0000#16 = 0x1FC#32 + BitVec.ofNat 32 3 ∧
      exec (.sb 9 8 0x0000#16) s = .next t ∧ t.effectiveAddress 0 0x01FC#16 = 0x1FC#32 := by
  refine ⟨machine size200 0#32 [(8, 0x1FF#32), (9, 0xAABBCCDD#32)] word100, ?_⟩
  obtain ⟨t, h, hp⟩ := next_with (o := exec (.sb 9 8 0x0000#16) (machine size200 0#32 [(8, 0x1FF#32), (9, 0xAABBCCDD#32)] word100))
    (P := fun t => decide (t.effectiveAddress 0 0x01FC#16 = 0x1FC#32)) (by decide)
  exact ⟨t, by decide, by decide, by decide, by decide, h, of_decide_eq_true hp⟩

theorem witness_NextFetchSeesAStore :
    ∃ s : State, s.mem.wf = true ∧ s.run = .running ∧ s.effectiveAddress 0 0x00FC#16 = s.pc + 0x00000004#32 ∧
      (s.effectiveAddress 0 0x00FC#16).toNat + 4 ≤ s.memSize.val :=
  ⟨machine size100 0xF8#32 [] [], by decide⟩

theorem witness_PrintIntSendsTheNumeral :
    ∃ s : State, s.readReg Reg.v0 = 0x00000001#32 ∧ (s.readReg Reg.a0).toInt = -2147483648 :=
  ⟨atSyscall [(2, 1#32), (4, 0x80000000#32)] [] [], by decide⟩

/-- A string whose zero byte is the last byte of memory. -/
theorem witness_PrintStringSendsTheString :
    ∃ s : State, s.readReg Reg.v0 = 0x00000004#32 ∧ (s.readReg Reg.a0).toNat + 1 < s.memSize.val ∧
      (∀ k, k < 1 → s.mem.read ((s.readReg Reg.a0).toNat + k) ≠ 0x00#8) ∧
      s.mem.read ((s.readReg Reg.a0).toNat + 1) = 0x00#8 :=
  ⟨atSyscall [(2, 4#32), (4, 0xFE#32)] [(0xFE, 0x41#8)] [], by decide⟩

/-- A string that fills the last byte, and an address at the ceiling. -/
theorem witness_PrintStringStopsAtTheCeiling :
    (∃ s : State, s.readReg Reg.v0 = 0x00000004#32 ∧ (s.readReg Reg.a0).toNat < s.memSize.val ∧
      ∀ a, (s.readReg Reg.a0).toNat ≤ a → a < s.memSize.val → s.mem.read a ≠ 0x00#8) ∧
    (∃ s : State, s.readReg Reg.v0 = 0x00000004#32 ∧ s.memSize.val = (s.readReg Reg.a0).toNat ∧
      ∀ a, (s.readReg Reg.a0).toNat ≤ a → a < s.memSize.val → s.mem.read a ≠ 0x00#8) := by
  refine ⟨⟨atSyscall [(2, 4#32), (4, 0xFF#32)] [(0xFF, 0x41#8)] [], by decide, by decide, ?_⟩,
    ⟨atSyscall [(2, 4#32), (4, 0x100#32)] [] [], by decide, by decide, ?_⟩⟩
  · intro a h1 h2
    have : a = 0xFF := by
      have e1 : ((atSyscall [(2, 4#32), (4, 0xFF#32)] [(0xFF, 0x41#8)] []).readReg Reg.a0).toNat = 0xFF := by decide
      have e2 : (atSyscall [(2, 4#32), (4, 0xFF#32)] [(0xFF, 0x41#8)] []).memSize.val = 0x100 := by decide
      omega
    subst this
    decide
  · intro a h1 h2
    have e1 : ((atSyscall [(2, 4#32), (4, 0x100#32)] [] []).readReg Reg.a0).toNat = 0x100 := by decide
    have e2 : (atSyscall [(2, 4#32), (4, 0x100#32)] [] []).memSize.val = 0x100 := by decide
    omega

theorem witness_PrintCharSendsTheLowByte : ∃ s : State, s.readReg Reg.v0 = 0x0000000B#32 :=
  ⟨atSyscall [(2, 11#32)] [] [], by decide⟩

theorem witness_ReadIntAndCharTakeTheAnswer :
    (∃ s : State, s.readReg Reg.v0 = 0x00000005#32 ∧ s.input = .int 0xFFFFFFFF#32 :: []) ∧
    (∃ s : State, s.readReg Reg.v0 = 0x0000000C#32 ∧ s.input = .char 0xFF#8 :: []) ∧
    (∃ s : State, s.readReg Reg.v0 = 0x0000000C#32 ∧ s.input = .endOfInput 0xFFFFFFFF#32 :: []) :=
  ⟨⟨atSyscall [(2, 5#32)] [] [.int 0xFFFFFFFF#32], by decide⟩, ⟨atSyscall [(2, 12#32)] [] [.char 0xFF#8], by decide⟩,
    ⟨atSyscall [(2, 12#32)] [] [.endOfInput 0xFFFFFFFF#32], by decide⟩⟩

/-- The longest line for its bound, its zero byte the last byte of memory. -/
theorem witness_ReadStringFillsTheBuffer :
    ∃ s : State, s.mem.wf = true ∧ s.readReg Reg.v0 = 0x00000008#32 ∧ s.input = .line [0x61#8] :: [] ∧
      (([0x61#8] : List Byte).length : Int) = (s.readReg Reg.a1).toInt - 1 ∧
      (s.readReg Reg.a0).toNat + ([0x61#8] : List Byte).length + 1 = s.memSize.val :=
  ⟨atSyscall [(2, 8#32), (4, 0xFE#32), (5, 2#32)] [] [.line [0x61#8]], by decide⟩

/-- The zero byte alone is out of range. -/
theorem witness_ReadStringAbortsAtTheCeiling :
    ∃ s : State, s.mem.wf = true ∧ s.readReg Reg.v0 = 0x00000008#32 ∧ s.input = .line [0x61#8] :: [] ∧
      (([0x61#8] : List Byte).length : Int) ≤ (s.readReg Reg.a1).toInt - 1 ∧
      s.memSize.val < (s.readReg Reg.a0).toNat + ([0x61#8] : List Byte).length + 1 :=
  ⟨atSyscall [(2, 8#32), (4, 0xFF#32), (5, 2#32)] [] [.line [0x61#8]], by decide⟩

theorem witness_ReadStringOfNoLengthDoesNothing :
    ∃ s : State, s.readReg Reg.v0 = 0x00000008#32 ∧ (s.readReg Reg.a1).toInt = 0 :=
  ⟨atSyscall [(2, 8#32)] [] [], by decide⟩

theorem witness_HaltingSelectors :
    (∃ s : State, s.readReg Reg.v0 = 0x0000000A#32) ∧ (∃ s : State, s.readReg Reg.v0 = 0x00000011#32) :=
  ⟨⟨atSyscall [(2, 10#32)] [] [], by decide⟩, ⟨atSyscall [(2, 17#32)] [] [], by decide⟩⟩

theorem witness_UnsupportedSelectorAborts :
    ∃ s : State, (s.readReg Reg.v0).toNat ∉ [1, 4, 5, 8, 10, 11, 12, 17] := ⟨State.reset, by decide⟩

/-- No answer, an answer of another kind, and a line one byte too long. -/
theorem witness_ReadWaitsForTheHost :
    (∃ s : State, s.readReg Reg.v0 = 0x00000005#32 ∧ ¬ s.answered .int ∧ s.run = .running ∧ s.fetch = .ok 0x0000000C#32) ∧
    (∃ s : State, s.readReg Reg.v0 = 0x0000000C#32 ∧ ¬ s.answered .char ∧ s.input = [.int 0#32] ∧ s.run = .running ∧
      s.fetch = .ok 0x0000000C#32) ∧
    (∃ s : State, s.readReg Reg.v0 = 0x00000008#32 ∧ 1 = (s.readReg Reg.a1).toInt ∧ ¬ s.answered (.line 0) ∧
      s.input = [.line [0x61#8]] ∧ s.run = .running ∧ s.fetch = .ok 0x0000000C#32) ∧
    decodeWord 0x0000000C#32 = .ok .syscall := by
  refine ⟨⟨atSyscall [(2, 5#32)] [(0x0C, 0x0C#8)] [], by decide, ?_, rfl, rfl⟩,
    ⟨atSyscall [(2, 12#32)] [(0x0C, 0x0C#8)] [.int 0#32], by decide, ?_, rfl, rfl, rfl⟩,
    ⟨atSyscall [(2, 8#32), (5, 1#32)] [(0x0C, 0x0C#8)] [.line [0x61#8]], by decide, by decide, ?_, rfl, rfl, rfl⟩, by decide⟩
  · rintro ⟨a, rest, h, -⟩; cases h
  · rintro ⟨a, rest, h, ha⟩; cases h; rcases ha with ⟨_, h⟩ | ⟨_, h⟩ <;> cases h
  · rintro ⟨a, rest, h, ha⟩; cases h; obtain ⟨_, h, hl⟩ := ha; cases h; exact absurd hl (by decide)

/-- A core at the `syscall` at 0x0C whose request the host holds. -/
def waiting (regs : List (Reg × Word)) (k : InputRequest) : State :=
  { atSyscall regs [(0x0C, 0x0C#8)] [] with pending := some k }

/-- One core for each request, with a line of the greatest length that fits, and one whose zero byte does not fit. -/
theorem witness_TheAnswerEndsTheWait :
    (∃ s : State, s.Inv ∧ s.pending = some .int ∧ s.input = []) ∧
    (∃ s : State, s.Inv ∧ s.pending = some .char ∧ s.input = []) ∧
    (∃ s : State, s.Inv ∧ s.pending = some (.line 1) ∧ s.input = [] ∧
      (s.readReg Reg.a0).toNat + ([0x61#8] : List Byte).length + 1 = s.memSize.val) ∧
    (∃ s : State, s.Inv ∧ s.pending = some (.line 1) ∧ s.input = [] ∧
      s.memSize.val + 1 = (s.readReg Reg.a0).toNat + ([0x61#8] : List Byte).length + 1) := by
  have inv : ∀ regs k, (waiting regs k).mem.wf = true ∧ (∀ c ∈ (waiting regs k).mem, c.1 < (waiting regs k).memSize.val) ∧
      (waiting regs k).regs[(0 : Reg)] = 0x00000000#32 ∧ (waiting regs k).exitCode = none ∧
      (waiting regs k).run = .running ∧ (waiting regs k).request = some k → (waiting regs k).Inv := by
    rintro regs k ⟨h1, h2, h3, h4, h5, h6⟩
    exact ⟨h1, h2, h3, fun h => absurd h4 h, fun k' h => by cases h; exact ⟨h5, h6⟩⟩
  exact ⟨⟨waiting [(2, 5#32)] .int, inv _ _ (by decide), rfl, rfl⟩,
    ⟨waiting [(2, 12#32)] .char, inv _ _ (by decide), rfl, rfl⟩,
    ⟨waiting [(2, 8#32), (4, 0xFE#32), (5, 2#32)] (.line 1), inv _ _ (by decide), rfl, rfl, by decide⟩,
    ⟨waiting [(2, 8#32), (4, 0xFF#32), (5, 2#32)] (.line 1), inv _ _ (by decide), rfl, rfl, by decide⟩⟩

/-- A state in which the host holds a request meets the invariant. -/
theorem witness_HostTransactionsKeepInvariant : ∃ s : State, s.Inv ∧ s.pending = some .int :=
  have ⟨s, hi, hp, _⟩ := witness_TheAnswerEndsTheWait.1
  ⟨s, hi, hp⟩

/-- The last word of memory is a `syscall`, and any word is placed. -/
theorem witness_StepRunsTheDecodedInstruction :
    (∃ s : State, s.run = .running ∧ s.pc.toNat + 4 = s.memSize.val ∧
      decode [s.mem.read s.pc.toNat, s.mem.read (s.pc.toNat + 1), s.mem.read (s.pc.toNat + 2),
        s.mem.read (s.pc.toNat + 3)] = .ok (.syscall, [])) ∧
    State.reset.mem.wf = true ∧ decodeWord 0x03E00008#32 = .ok (.jr 31) :=
  ⟨⟨machine size100 0xFC#32 [] [(0xFC, 0x0C#8)], by decide⟩, by decide⟩

theorem witness_UnimplementedWordsAreSkipped :
    (∃ s : State, s.run = .running ∧ s.pc.toNat + 4 ≤ s.memSize.val ∧
      decodeWord (s.mem.readWord s.pc.toNat) = .error (.unknownOpcode 0x3F#6)) ∧
    (∃ s : State, s.run = .running ∧ s.pc.toNat + 4 ≤ s.memSize.val ∧
      decodeWord (s.mem.readWord s.pc.toNat) = .error (.unknownFunct 0x01#6)) :=
  ⟨⟨machine size100 0xFC#32 [] [(0xFF, 0xFC#8)], by decide⟩, ⟨machine size100 0xFC#32 [] [(0xFC, 0x01#8)], by decide⟩⟩

theorem witness_FetchReadsOrAborts :
    (∃ s : State, s.pc.toNat + 4 = s.memSize.val) ∧
    (∃ s : State, s.run = .running ∧ s.memSize.val + 1 = s.pc.toNat + 4) :=
  ⟨⟨machine size100 0xFC#32 [] [], by decide⟩, ⟨machine size100 0xFD#32 [] [], by decide⟩⟩

theorem witness_StepsExistExactlyWhenEnabled :
    (∃ s : State, s.run ≠ .running) ∧
    (∃ s : State, s.run = .running ∧ s.request = some .int ∧ ¬ s.answered .int) ∧
    (∃ s : State, s.run = .running ∧ ∀ k, s.request = some k → s.answered k) := by
  refine ⟨⟨{ State.reset with run := .halted }, by decide⟩, ⟨waiting [(2, 5#32)] .int, rfl, by decide, ?_⟩,
    ⟨atSyscall [(2, 5#32)] [(0x0C, 0x0C#8)] [.int 7#32], rfl, fun k h => ?_⟩⟩
  · rintro ⟨a, rest, h, -⟩; cases h
  · have hr : (atSyscall [(2, 5#32)] [(0x0C, 0x0C#8)] [.int 7#32]).request = some .int := by decide
    rw [hr] at h; cases h
    exact ⟨_, _, rfl, _, rfl⟩

theorem witness_DefaultAdvanceIsFour :
    ∃ s t : State, s.run = .running ∧ mayTransfer .syscall = false ∧ exec .syscall s = .next t :=
  ⟨State.reset, _, rfl, rfl, rfl⟩

/-- The byte after a stored word, and the byte before it. -/
theorem witness_OnlyStoresChangeMemory :
    ∃ s t : State, exec (.sw 9 8 0x0000#16) s = .next t ∧ ¬ mayStore (.sw 9 8 0x0000#16) s 0x104 ∧
      ¬ mayStore (.sw 9 8 0x0000#16) s 0xFF := by
  obtain ⟨t, h⟩ | ⟨h, -⟩ := exec_enabled (.sw 9 8 0x0000#16) (machine size200 0#32 [(8, 0x100#32)] word100)
  case inr => cases h
  have e : ((machine size200 0#32 [(8, 0x100#32)] word100).effectiveAddress 8 0x0000#16).toNat = 0x100 := by decide
  exact ⟨_, t, h, by rw [mayStore, e]; omega, by rw [mayStore, e]; omega⟩

theorem witness_OnlyHaltingSyscallsHalt : ∃ s t : State, step s = .next t ∧ t.run = .halted := by
  obtain ⟨t, h, hp⟩ := next_with (o := step (atSyscall [(2, 10#32)] [(0x0C, 0x0C#8)] []))
    (P := fun t => decide (t.run = .halted)) (by decide)
  exact ⟨_, t, h, of_decide_eq_true hp⟩

/-- One abort of each kind. -/
theorem witness_OnlyListedErrorsAbort_and_AbortsArePrecise :
    (∃ s t : State, step s = .next t ∧ t.run = .aborted (.fetchOutOfRange 0xFD#32)) ∧
    (∃ s t : State, step s = .next t ∧ t.run = .aborted (.unsupportedSyscall 0#32)) ∧
    (∃ s t : State, step s = .next t ∧ t.run = .aborted (.writeOutOfRange 0x100#32)) := by
  obtain ⟨t, h, hp⟩ := next_with (o := step (machine size100 0xFD#32 [] []))
    (P := fun t => decide (t.run = .aborted (.fetchOutOfRange 0xFD#32))) (by decide)
  obtain ⟨u, h', hp'⟩ := next_with (o := step (atSyscall [] [(0x0C, 0x0C#8)] []))
    (P := fun t => decide (t.run = .aborted (.unsupportedSyscall 0#32))) (by decide)
  obtain ⟨v, h'', hp''⟩ := next_with
    (o := step (atSyscall [(2, 8#32), (4, 0xFF#32), (5, 2#32)] [(0x0C, 0x0C#8)] [.line [0x61#8]]))
    (P := fun t => decide (t.run = .aborted (.writeOutOfRange 0x100#32))) (by decide)
  exact ⟨⟨_, t, h, of_decide_eq_true hp⟩, ⟨_, u, h', of_decide_eq_true hp'⟩, ⟨_, v, h'', of_decide_eq_true hp''⟩⟩

/-- A step that sends a byte, and one that takes an answer. -/
theorem witness_SentStreams_and_ConsumedInput :
    (∃ s t : State, step s = .next t ∧ t.output = [0x41#8]) ∧
    (∃ s t : State, step s = .next t ∧ s.input = [.char 0x41#8] ∧ t.input = []) := by
  obtain ⟨t, h, hp⟩ := next_with (o := step (atSyscall [(2, 11#32), (4, 0x41#32)] [(0x0C, 0x0C#8)] []))
    (P := fun t => decide (t.output = [0x41#8])) (by decide)
  obtain ⟨u, h', hp'⟩ := next_with (o := step (atSyscall [(2, 12#32)] [(0x0C, 0x0C#8)] [.char 0x41#8]))
    (P := fun t => decide (t.input = [])) (by decide)
  exact ⟨⟨_, t, h, of_decide_eq_true hp⟩, ⟨_, u, h', rfl, of_decide_eq_true hp'⟩⟩

/-- The invariant is met where the host holds a request, and by the reset state, from which there is a step. -/
theorem witness_StepKeepsInvariant : ∃ s t : State, s.Inv ∧ step s = .next t := by
  obtain ⟨t, ht, -⟩ := next_with (o := step (machine size100 0#32 [] [])) (P := fun _ => true) (by decide)
  refine ⟨_, t, ⟨rfl, ?_, by decide, fun h => absurd rfl h, fun k h => by cases h⟩, ht⟩
  intro c h; cases h

theorem witness_EncodingRoundTrips :
    (Instr.sll 31 31 31).wellFormed = true ∧ decodeWord 0x03FFFFCC#32 = .ok .syscall := by decide

theorem witness_UnusedFieldsAreIgnored :
    decodeWord 0x01095020#32 = .ok (.add 10 8 9) ∧
    0x010957E0#32 &&& (Instr.add 10 8 9).usedBits = 0x01095020#32 &&& (Instr.add 10 8 9).usedBits := by decide

theorem witness_DecoderFollowsTheTable :
    decodeWord 0x01095020#32 = .ok (.add 10 8 9) ∧ (∀ r ∈ opcodeTable, 0xFC000000#32 &&& r.mask ≠ r.pattern) := by decide

theorem witness_PseudoInstructionsLoad :
    (0x7FFF#32).toNat < 32768 ∧ 32768 ≤ (0x8000#32).toNat ∧ (0xFFFF#32).toNat < 65536 := by decide

/-- Program P2: the text starts at address 3, and the image fills memory exactly. -/
theorem witness_LaunchedImageRunsItsFirstInstruction :
    ∃ l : Launch, (Instr.syscall).wellFormed = true ∧
      l.image = imageOf ([.dataHeader, .asciiz [0x68#8, 0x69#8], .textHeader] ++ .instr .syscall :: []) ∧
      l.image.length = l.memSize.val ∧
      l.entry = BitVec.ofNat 32 (counterAfter [.dataHeader, .asciiz [0x68#8, 0x69#8], .textHeader]) :=
  ⟨⟨⟨7, by decide, by decide⟩, imageOf ([.dataHeader, .asciiz [0x68#8, 0x69#8], .textHeader] ++ .instr .syscall :: []), 3#32,
    Vector.replicate 32 0#32, [], []⟩, by decide⟩

end Sys2Proof.Tests
end

section
/-! PROOFS. The registers (spec/10_state.md R21, R22). -/

namespace Sys2Proof.Machine

/-- R21: only x[0] is hard-wired; any other register reads as its storage. -/
theorem readReg_of_ne_zero (s : State) {r : Reg} (hr : r ≠ Reg.zero) : s.readReg r = s.regs[r] := if_neg hr

/-- R22: a write to a register other than x[0] is not discarded, and changes no other register. -/
theorem readReg_writeReg_of_ne_zero (s : State) {r : Reg} (hr : r ≠ Reg.zero) (v : Word) (q : Reg) :
    (s.writeReg r v).readReg q = if q = r then v else s.readReg q := by
  rw [readReg_writeReg]
  simp only [hr, ne_eq, not_false_eq_true, and_true]

/-- Settles O3: the four clauses are the register laws, `readReg_zero`, `writeReg_zero` and the two above. -/
theorem zeroRegisterIsHardWired : Obligations.ZeroRegisterIsHardWired := by
  intro s r q v
  exact ⟨readReg_zero s, writeReg_zero s v, readReg_of_ne_zero s, fun hr => readReg_writeReg_of_ne_zero s hr v q⟩

end Sys2Proof.Machine
end

section
/-! PROOFS. Encoding and decoding are inverse up to ignored fields (spec/30_encoding.md R89, R105). -/

namespace Sys2Proof

/-! ## From an instruction to its word and back -/

/-- R147, R148: a shift amount that fits its field is what the field holds. -/
theorem toNat_ofNat_of_shamtFits {shamt : Nat} (h : shamtFits shamt = true) : (BitVec.ofNat 5 shamt).toNat = shamt :=
  BitVec.toNat_ofNat shamt 5 ▸ Nat.mod_eq_of_lt (of_decide_eq_true h)

/-- The fields of the encoded word select the instruction's own arm and give its operands back. -/
theorem decodeWord_encode {i : Instr} (h : i.wellFormed = true) : decodeWord (encode i) = .ok i := by
  cases i with
  | add | sub | and | or | nor | slt | mul | jr | syscall =>
    simp only [encode, rType3, decodeWord, decodeSpecial, opField_rType, functField_rType, rsField_rType, rtField_rType,
      rdField_rType, regBits_toFin]
    rfl
  | sll _ _ shamt | srl _ _ shamt =>
    have hs : (BitVec.ofNat 5 shamt).toNat = shamt := toNat_ofNat_of_shamtFits h
    simp only [encode, rTypeShift, decodeWord, decodeSpecial, opField_rType, functField_rType, rtField_rType,
      rdField_rType, shamtField_rType, regBits_toFin, hs]
    rfl
  | addi | slti | andi | ori | beq | bne | blt | bge | lw | lbu | sw | sb =>
    simp only [encode, decodeWord, opField_iType, rsField_iType, rtField_iType, immField_iType]
    rfl
  | j | jal =>
    simp only [encode, decodeWord, opField_jType, targetField_jType]
    rfl

/-- The decoder on bytes reads a word's four bytes as the word (R52, R53) and leaves the rest. -/
theorem decode_bytesOfWord (w : Word) (rest : List Byte) :
    decode (bytesOfWord w ++ rest) = (decodeWord w).map (fun i => (i, rest)) :=
  (decode_cons _ _ _ _ rest).trans (by rw [Machine.wordOfBytes_bytesOfWord])

/-! ## From a word of op 0 to its instruction and back -/

/-- A 5-bit field under a mask that keeps it. -/
theorem and_fullField (x : BitVec 5) : x &&& 31#5 = x := BitVec.and_allOnes

/-- A mask of whole fields that keeps op and funct, on a word of op 0. -/
theorem and_fieldMask {w : Word} (ho : opField w = opSpecial) (a b c d : BitVec 5) :
    w &&& (63#6 ++ a ++ b ++ c ++ d ++ 63#6 : BitVec 32) =
      rType (regBits (rsField w) &&& a) (regBits (rtField w) &&& b) (regBits (rdField w) &&& c)
        (BitVec.ofNat 5 (shamtField w) &&& d) (functField w) := by
  have keepsFunct : functField w &&& 63#6 = functField w := BitVec.and_allOnes
  conv_lhs => rw [← rType_fields ho]
  rw [rType_and, keepsFunct]

/-- R89: the three-register form clears shamt. -/
theorem rType3_fields {w : Word} {f : BitVec 6} (ho : opField w = opSpecial) (hf : functField w = f) :
    rType3 (rdField w) (rsField w) (rtField w) f = w &&& 0xFFFFF83F#32 := by
  have h := and_fieldMask ho 31#5 31#5 31#5 0#5
  rw [and_fullField, and_fullField, and_fullField, BitVec.and_zero, hf] at h
  exact h.symm

/-- R89: the shift form clears rs. -/
theorem rTypeShift_fields {w : Word} {f : BitVec 6} (ho : opField w = opSpecial) (hf : functField w = f) :
    rTypeShift (rdField w) (rtField w) (shamtField w) f = w &&& 0xFC1FFFFF#32 := by
  have h := and_fieldMask ho 0#5 31#5 31#5 31#5
  rw [and_fullField, and_fullField, and_fullField, BitVec.and_zero, hf] at h
  exact h.symm

/-- R89: `jr` clears rt, rd and shamt. -/
theorem encode_jr_rsField {w : Word} (ho : opField w = opSpecial) (hf : functField w = fnJr) :
    encode (.jr (rsField w)) = w &&& 0xFFE0003F#32 := by
  have h := and_fieldMask ho 31#5 0#5 0#5 0#5
  rw [and_fullField, BitVec.and_zero, BitVec.and_zero, BitVec.and_zero, hf] at h
  exact h.symm

/-- R88: `syscall` clears every field between op and funct. -/
theorem encode_syscall_eq_and {w : Word} (ho : opField w = opSpecial) (hf : functField w = fnSyscall) :
    encode .syscall = w &&& 0xFC00003F#32 := by
  have h := and_fieldMask ho 0#5 0#5 0#5 0#5
  rw [BitVec.and_zero, BitVec.and_zero, BitVec.and_zero, BitVec.and_zero, hf] at h
  exact h.symm

/-- What a word of op 0 decodes to is well-formed and encodes to the word's used bits, by the form of its function. -/
theorem encode_decodeSpecial {w : Word} {i : Instr} (ho : opField w = opSpecial) (h : decodeSpecial w = .ok i) :
    i.wellFormed = true ∧ encode i = w &&& i.usedBits := by
  rcases decodeSpecial_cases w with ⟨hf, e⟩ | ⟨hf, e⟩ | ⟨hf, e⟩ | ⟨hf, e⟩ | ⟨hf, e⟩ | ⟨hf, e⟩ | ⟨hf, e⟩ | ⟨hf, e⟩ |
    ⟨hf, e⟩ | ⟨hf, e⟩ | ⟨hf, e⟩ | ⟨hf, e⟩
  all_goals
    rw [e] at h
    cases h
  iterate 7 exact ⟨rfl, rType3_fields ho hf⟩
  iterate 2 exact ⟨decide_eq_true (shamtField_lt w), rTypeShift_fields ho hf⟩
  · exact ⟨rfl, encode_jr_rsField ho hf⟩
  · exact ⟨rfl, encode_syscall_eq_and ho hf⟩

/-! ## From any word to its instruction and back -/

/-- R82: an I-type word has no ignored field. -/
theorem iType_fields_allOnes {w : Word} {op : BitVec 6} (ho : opField w = op) :
    iType op (rsField w) (rtField w) (immField w) = w &&& 0xFFFFFFFF#32 :=
  ho ▸ (iType_fields w).trans BitVec.and_allOnes.symm

/-- R83: a J-type word has no ignored field. -/
theorem jType_fields_allOnes {w : Word} {op : BitVec 6} (ho : opField w = op) :
    jType op (targetField w) = w &&& 0xFFFFFFFF#32 :=
  ho ▸ (jType_fields w).trans BitVec.and_allOnes.symm

/-- What a word decodes to is well-formed and encodes to the word's used bits, by the word's layout. -/
theorem encode_decodeWord {w : Word} {i : Instr} (h : decodeWord w = .ok i) :
    i.wellFormed = true ∧ encode i = w &&& i.usedBits := by
  rcases decodeWord_cases w with ⟨ho, e⟩ | ⟨ho, e⟩ | ⟨ho, e⟩ | ⟨ho, e⟩ | ⟨ho, e⟩ | ⟨ho, e⟩ | ⟨ho, e⟩ | ⟨ho, e⟩ |
    ⟨ho, e⟩ | ⟨ho, e⟩ | ⟨ho, e⟩ | ⟨ho, e⟩ | ⟨ho, e⟩ | ⟨ho, e⟩ | ⟨ho, e⟩ | ⟨ho, e⟩
  · exact encode_decodeSpecial ho (e ▸ h)
  all_goals
    rw [e] at h
    cases h
  iterate 12 exact ⟨rfl, iType_fields_allOnes ho⟩
  iterate 2 exact ⟨rfl, jType_fields_allOnes ho⟩

/-- Settles O51: `decodeWord_encode` through the four bytes, and `encode_decodeWord`. -/
theorem encodingRoundTrips : Obligations.EncodingRoundTrips := by
  refine ⟨fun i rest hi => ?_, fun w i h => encode_decodeWord h⟩
  rw [decode_bytesOfWord, decodeWord_encode hi]
  rfl

end Sys2Proof
end

section
/-! PROOFS. The fetch (spec/40_cycle.md R121). -/

namespace Sys2Proof.Machine

/-- R51: an access reaches past the ceiling exactly when it is not in range. -/
theorem inRange_eq_false_iff (s : State) (a : Word) (n : Nat) :
    s.inRange a n = false ↔ s.memSize.val < a.toNat + n := by
  rw [← Bool.not_eq_true, inRange_iff, Nat.not_le]

/-- R52, R121: the word at an address is its four bytes, the highest address most significant. -/
theorem readWord_eq_append (m : Memory) (a : Nat) :
    m.readWord a = m.read (a + 3) ++ m.read (a + 2) ++ m.read (a + 1) ++ m.read a := rfl

theorem fetch_inRange {s : State} (h : s.inRange s.pc 4 = true) : s.fetch = .ok (s.mem.readWord s.pc.toNat) := if_pos h

theorem fetch_outOfRange {s : State} (h : s.inRange s.pc 4 = false) : s.fetch = .error (.fetchOutOfRange s.pc) :=
  if_neg (Bool.not_eq_true _ ▸ h)

/-- R121: a Running core that cannot fetch does nothing but abort. -/
theorem step_of_fetch_outOfRange {s : State} (hr : s.run = .running) (h : s.inRange s.pc 4 = false) :
    step s = .next (s.abort (.fetchOutOfRange s.pc)) := by
  simp only [step, hr, fetch_outOfRange h]

/-- Settles O41: the fetched word is `readWord_eq_append`, and the abort of `step_of_fetch_outOfRange` writes `run`
alone. -/
theorem fetchReadsOrAborts : Obligations.FetchReadsOrAborts := by
  intro s
  constructor
  · intro hin
    rw [fetch_inRange ((inRange_iff s s.pc 4).2 hin), readWord_eq_append]
  · intro hr hout
    have hstep := step_of_fetch_outOfRange hr ((inRange_eq_false_iff s s.pc 4).2 hout)
    exact ⟨_, hstep, abort_run _ _, abort_pc _ _, abort_readReg _ _, fun _ => rfl, ⟨rfl, rfl, rfl⟩, abort_exitCode _ _,
      abort_pending _ _, abort_memSize _ _⟩

end Sys2Proof.Machine
end

section
/-! PROOFS. The ALU instructions: what the shared end writes, and which words select them (spec/41_alu.md R142 to R145,
R151, R152). -/

namespace Sys2Proof.Machine

/-- R126, R22: an instruction that ends in `writeBack` computes its result into its register and changes nothing else. -/
theorem computesInto_of_writeBack {i : Instr} {s : State} {d : Reg} {v : Word} (h : exec i s = writeBack s d v) :
    ComputesInto i s d v := by
  have hreg : WritesReg s (s.writeReg d v).advance d v := fun q => by rw [advance_readReg, readReg_writeReg]
  exact ⟨_, h.trans (writeBack_eq s d v), hreg, rfl, fun _ => rfl, ⟨rfl, rfl, rfl, rfl⟩, rfl, rfl, rfl⟩

/-- R124: among the words of op 0 the function alone selects, so `decodeSpecial` is all there is to look at. -/
theorem selectsFunct_of_decodeSpecial {f : BitVec 6} {fields : Word → Instr}
    (h : ∀ w, functField w = f → decodeSpecial w = .ok (fields w)) : SelectsFunct f fields :=
  fun w ho hf => (if_pos ho : decodeWord w = decodeSpecial w).trans (h w hf)

/-- Settles O6: each `exec` is a `writeBack` (`computesInto_of_writeBack`), and each word selects the arm of its function
or opcode. -/
theorem bitwiseResults : Obligations.BitwiseResults := by
  refine ⟨fun rd rs rt imm s => ⟨?_, ?_, ?_, ?_, ?_⟩, ?and, ?or, ?nor, ?andi, ?ori⟩
  case and | or | nor =>
    refine selectsFunct_of_decodeSpecial fun w hf => ?_
    rw [decodeSpecial, hf]
    rfl
  case andi | ori =>
    intro w ho
    rw [decodeWord, ho]
    rfl
  all_goals exact computesInto_of_writeBack rfl

/-- R145: `setLess` on signed values is the comparison of the words as two's-complement integers. -/
theorem setLess_signed (a b : Word) :
    setLess (signed a) (signed b) = if a.toInt < b.toInt then 0x00000001#32 else 0x00000000#32 := rfl

/-- Settles O7: `exec` of `slt` is a `writeBack` of `setLess`, and the function 0x2A selects its arm. -/
theorem setLessThanResult : Obligations.SetLessThanResult := by
  refine ⟨fun rd rs rt s => ?_, selectsFunct_of_decodeSpecial fun w hf => ?_⟩
  · rw [← setLess_signed]
    exact computesInto_of_writeBack rfl
  · rw [decodeSpecial, hf]
    rfl

end Sys2Proof.Machine
end

section
/-! PROOFS. The jumps: what a transfer of control leaves unchanged, and which words are `jr` (spec/42_branch_jump.md R177). -/

namespace Sys2Proof.Machine

/-- R127: an instruction that ends in `jumpTo` transfers to that target and changes nothing but the pc. -/
theorem transfersTo_of_jumpTo {i : Instr} {s : State} {u : Word} (h : exec i s = .next (s.jumpTo u)) :
    TransfersTo i s u :=
  ⟨_, h, jumpTo_pc s u, jumpTo_readReg s u, fun _ => rfl, ⟨rfl, rfl, rfl, rfl⟩, rfl, rfl, rfl⟩

/-- Settles O15: `exec` of `jr` is a `jumpTo` the whole register, and the function 0x08 selects its arm. -/
theorem jumpRegisterResult : Obligations.JumpRegisterResult := by
  refine ⟨fun rs s => ?_, selectsFunct_of_decodeSpecial fun w hf => ?_⟩
  · exact transfersTo_of_jumpTo rfl
  · rw [decodeSpecial, hf]
    rfl

end Sys2Proof.Machine
end

section
/-! PROOFS. The loads: what an access of either width leaves in the register and with the host, and which words are `lbu`
(spec/43_load_store.md R190, R192). -/

namespace Sys2Proof.Machine

/-- R190: the address of a load, its displacement sign-extended. -/
theorem effectiveAddress_eq (s : State) (rs : Reg) (imm : Imm) :
    s.effectiveAddress rs imm = s.readReg rs + imm.signExtend 32 := rfl

/-- R22, R126: the shared end of a load, from the start state with the diagnostics of its access added. -/
theorem loadsInto_of_writeBack {i : Instr} {s t : State} {d : Reg} {v : Word} {ds : List Diag}
    (h : exec i s = writeBack t d v) (ht : t = { s with diags := s.diags ++ ds }) : LoadsInto i s d v ds := by
  subst ht
  exact ⟨_, h.trans (writeBack_eq _ d v), readReg_writeReg _ d v, rfl, fun _ => rfl, ⟨rfl, rfl, rfl, rfl⟩, rfl, rfl, rfl⟩

/-- R55: in range, a load of any width writes what memory holds and sends no diagnostic. -/
theorem loadsInto_of_loadTo_inRange {i : Instr} {s : State} {n : Width} {rt rs : Reg} {imm : Imm}
    (h : exec i s = loadTo n rt rs imm s) (hin : s.inRange (s.effectiveAddress rs imm) n.bytes = true) :
    LoadsInto i s rt (s.mem.load n (s.effectiveAddress rs imm).toNat) [] :=
  loadsInto_of_writeBack (h.trans (loadTo_inRange hin)) (by rw [List.append_nil])

/-- R55: out of range, a load of any width writes 0 and sends one diagnostic. -/
theorem loadsInto_of_loadTo_outOfRange {i : Instr} {s : State} {n : Width} {rt rs : Reg} {imm : Imm}
    (h : exec i s = loadTo n rt rs imm s) (hout : s.inRange (s.effectiveAddress rs imm) n.bytes = false) :
    LoadsInto i s rt 0x00000000#32 [.readOutOfRange (s.effectiveAddress rs imm)] :=
  loadsInto_of_writeBack (h.trans (loadTo_outOfRange hout)) rfl

/-- Settles O19: `exec` of `lbu` is the `loadTo` of one byte, whose access is in range exactly below the ceiling, and the
opcode 0x24 selects its arm. -/
theorem loadByteUnsignedResult : Obligations.LoadByteUnsignedResult := by
  refine ⟨fun rt rs imm s => ?_, fun w ho => ?_⟩
  · have hexec : exec (.lbu rt rs imm) s = loadTo .byte rt rs imm s := rfl
    rw [← effectiveAddress_eq]
    constructor
    · intro hin
      exact loadsInto_of_loadTo_inRange hexec ((inRange_iff s _ 1).2 hin)
    · intro hout
      exact loadsInto_of_loadTo_outOfRange hexec ((inRange_eq_false_iff s _ 1).2 (Nat.lt_succ_of_le hout))
  · rw [decodeWord, ho]
    rfl

end Sys2Proof.Machine
end

section
/-! PROOFS. The syscalls: what an abort leaves unchanged, and the selectors without a meaning (spec/44_syscall.md R221). -/

namespace Sys2Proof.Machine

/-- R130: an instruction whose whole effect is `abort` ends the run with that error and changes nothing else. -/
theorem abortsWith_of_abort {i : Instr} {s : State} {e : FatalError} (h : exec i s = .next (s.abort e)) :
    AbortsWith i s e :=
  ⟨_, h, abort_run s e, abort_pc s e, abort_readReg s e, fun _ => rfl, ⟨rfl, rfl, rfl⟩, abort_exitCode s e,
    abort_pending s e, abort_memSize s e⟩

/-- R210: `syscall` does what its selector's arm does. -/
theorem exec_syscall (s : State) : exec .syscall s = syscallResult s := rfl

/-- Settles O35: off the list of selectors the dispatch falls to its last arm (`syscall_unsupported`), which is an `abort`
and nothing else. -/
theorem unsupportedSelectorAborts : Obligations.UnsupportedSelectorAborts := by
  intro s hsel
  have hnone : s.selector ∉ selectors := hsel
  have habort : exec .syscall s = .next (s.abort (.unsupportedSyscall (s.readReg Reg.v0))) :=
    (exec_syscall s).trans (syscall_unsupported hnone)
  exact abortsWith_of_abort habort

end Sys2Proof.Machine
end

section
/-! PROOFS. What every instruction and every step keeps, one aspect of the state at a time: registers, memory, input and
MEM_SIZE, the pending request, and the run with its pc. The statements about all steps are assembled from these. -/

namespace Sys2Proof.Machine

/-! ## Registers (spec/10_state.md R22, R23) -/

/-- R23: a `syscall` writes at most x[2], and that for the selectors that read an integer or a character. -/
theorem regs_of_syscall_next {s t : State} (h : syscallResult s = .next t) :
    t.regs = s.regs ∨ ∃ d v, destination .syscall s = some d ∧ t.regs = (s.writeReg d v).regs := by
  rcases syscall_next h with ⟨_, _, -, rfl⟩ | ⟨v, _, _, hsel, -, rfl⟩ | ⟨_, _, -, -, -, -, -, rfl⟩ |
    ⟨_, _, -, -, -, -, -, rfl⟩ | ⟨-, -, rfl⟩ | ⟨_, -, rfl⟩ | ⟨-, rfl⟩
  case inr.inl => exact .inr ⟨Reg.v0, v, if_pos hsel, rfl⟩
  all_goals exact .inl rfl

/-- R23: the register file is as before, or its one destination is written. -/
theorem regs_of_exec_next {i : Instr} {s t : State} (h : exec i s = .next t) :
    t.regs = s.regs ∨ ∃ d v, destination i s = some d ∧ t.regs = (s.writeReg d v).regs := by
  rcases exec_cases h with ⟨d, v, hd, -, -, rfl⟩ | ⟨d, _, hd, -, -, rfl⟩ | ⟨-, -, rfl | ⟨_, rfl⟩⟩ | ⟨_, rfl, rfl⟩ |
    ⟨_, _, _, _, -, -, rfl⟩ | ⟨_, _, _, _, -, -, rfl⟩ | ⟨rfl, hsys⟩
  · exact .inr ⟨d, v, hd, rfl⟩
  · exact .inr ⟨d, _, hd, rfl⟩
  · exact .inl rfl
  · exact .inl rfl
  · exact .inr ⟨Reg.ra, _, rfl, rfl⟩
  · exact .inl rfl
  · exact .inl rfl
  · exact regs_of_syscall_next hsys

/-- R21: a register reads the same where the register files are the same. -/
theorem readReg_congr {s t : State} (h : t.regs = s.regs) (r : Reg) : t.readReg r = s.readReg r := by
  rw [State.readReg, h, State.readReg]

theorem zeroStored_of_exec_next {i : Instr} {s t : State} (h : exec i s = .next t) :
    t.regs[(0 : Reg)] = s.regs[(0 : Reg)] := by
  rcases regs_of_exec_next h with e | ⟨d, v, -, e⟩
  · rw [e]
  · rw [e, writeReg_zeroStored]

/-! ## Memory (spec/20_memory.md R56, R58) -/

/-- R216: the line's limit is one below the bound L, which leaves room for the zero byte. -/
theorem lineLimit_add_one {s : State} (h : s.lineBound ≥ 1) : (s.lineLimit : Int) + 1 = s.lineBound := by
  rw [State.lineLimit]
  omega

/-- Memory is as before, or one run of bytes below the ceiling, all of them the instruction's to store, is written. -/
def StoresRun (i : Instr) (s t : State) : Prop :=
  t.mem = s.mem ∨ ∃ a bs, t.mem = s.mem.writeBytes a bs ∧ a + bs.length ≤ s.memSize.val ∧
    ∀ c, a ≤ c → c < a + bs.length → mayStore i s c

/-- R216: `read_string` writes within its buffer, and below the ceiling also when it aborts. -/
theorem storesRun_of_syscall_next {s t : State} (h : syscallResult s = .next t) : StoresRun .syscall s t := by
  rcases syscall_next h with ⟨_, _, -, rfl⟩ | ⟨v, _, _, hsel, -, rfl⟩ | ⟨bytes, _, hsel, hL, -, hlen, hroom, rfl⟩ |
    ⟨bytes, _, hsel, hL, -, hlen, -, rfl⟩ | ⟨-, -, rfl⟩ | ⟨_, -, rfl⟩ | ⟨-, rfl⟩
  case inr.inr.inl =>
    refine .inr ⟨_, _, rfl, (List.length_append ..).symm ▸ hroom, fun c hle hlt => ⟨hsel, hle, ?_⟩⟩
    have := lineLimit_add_one hL
    simp only [List.length_append, List.length_singleton] at hlt
    omega
  case inr.inr.inr.inl =>
    by_cases hstart : (s.readReg Reg.a0).toNat < s.memSize.val
    · refine .inr ⟨_, _, rfl, by rw [List.length_take]; omega, fun c hle hlt => ⟨hsel, hle, ?_⟩⟩
      have := lineLimit_add_one hL
      rw [List.length_take] at hlt
      omega
    · have hnone : s.memSize.val - (s.readReg Reg.a0).toNat = 0 := by omega
      exact .inl (by rw [abort_mem, hnone]; rfl)
  all_goals exact .inl rfl

/-- R56, R58: a store writes the bytes of its access, and only stores and `read_string` write. -/
theorem storesRun_of_exec_next {i : Instr} {s t : State} (h : exec i s = .next t) : StoresRun i s t := by
  rcases exec_cases h with ⟨_, _, -, -, -, rfl⟩ | ⟨_, _, -, -, -, rfl⟩ | ⟨-, -, rfl | ⟨_, rfl⟩⟩ | ⟨_, -, rfl⟩ |
    ⟨_, rt, rs, imm, hi, hin, rfl⟩ | ⟨_, _, _, _, -, -, rfl⟩ | ⟨rfl, hsys⟩
  case inr.inr.inr.inr.inl =>
    refine .inr ⟨_, _, rfl, by rwa [storeBytes_length], fun c hle hlt => ?_⟩
    rw [storeBytes_length] at hlt
    rcases hi with ⟨rfl, rfl⟩ | ⟨rfl, rfl⟩
    · exact ⟨hle, hlt⟩
    · exact Nat.le_antisymm (Nat.le_of_lt_succ hlt) hle
  case inr.inr.inr.inr.inr.inr => exact storesRun_of_syscall_next hsys
  all_goals exact .inl rfl

/-! ## The input stream and MEM_SIZE (spec/10_state.md R32, R34) -/

/-- R212: at most the oldest answer is taken; R32: MEM_SIZE is fixed. -/
def TakesAtMostOne (s t : State) : Prop := (t.input = s.input ∨ ∃ a, s.input = a :: t.input) ∧ t.memSize = s.memSize

theorem takesAtMostOne_of_syscall_next {s t : State} (h : syscallResult s = .next t) : TakesAtMostOne s t := by
  rcases syscall_next h with ⟨_, _, -, rfl⟩ | ⟨_, a, _, -, hin, rfl⟩ | ⟨bytes, _, -, -, hin, -, -, rfl⟩ |
    ⟨bytes, _, -, -, hin, -, -, rfl⟩ | ⟨-, -, rfl⟩ | ⟨_, -, rfl⟩ | ⟨-, rfl⟩
  case inr.inl | inr.inr.inl | inr.inr.inr.inl => exact ⟨.inr ⟨_, hin⟩, rfl⟩
  all_goals exact ⟨.inl rfl, rfl⟩

theorem takesAtMostOne_of_exec_next {i : Instr} {s t : State} (h : exec i s = .next t) : TakesAtMostOne s t := by
  rcases exec_cases h with ⟨_, _, -, -, -, rfl⟩ | ⟨_, _, -, -, -, rfl⟩ | ⟨-, -, rfl | ⟨_, rfl⟩⟩ | ⟨_, -, rfl⟩ |
    ⟨_, _, _, _, -, -, rfl⟩ | ⟨_, _, _, _, -, -, rfl⟩ | ⟨-, hsys⟩
  case inr.inr.inr.inr.inr.inr => exact takesAtMostOne_of_syscall_next hsys
  all_goals exact ⟨.inl rfl, rfl⟩

/-! ## The pending request (spec/10_state.md R33) -/

/-- R212: only selectors 5, 12 and 8 with a positive bound ask the host. -/
theorem syscallRequest_eq_none {s : State} (h5 : s.selector ≠ 5) (h12 : s.selector ≠ 12)
    (h8 : s.selector = 8 → s.lineBound ≤ 0) : s.syscallRequest = none := by
  unfold State.syscallRequest
  split
  · exact absurd ‹_› h5
  · exact if_neg (by have := h8 ‹_›; omega)
  · exact absurd ‹_› h12
  · rfl

/-- R33: a `syscall` that completes has answered its request, or makes none. -/
theorem pending_of_syscall_next {s t : State} (h : syscallResult s = .next t) :
    t.pending = none ∨ (t.pending = s.pending ∧ s.syscallRequest = none) := by
  rcases syscall_next h with ⟨_, _, hsel, rfl⟩ | ⟨_, _, _, -, -, rfl⟩ | ⟨_, _, -, -, -, -, -, rfl⟩ |
    ⟨_, _, -, -, -, -, -, rfl⟩ | ⟨hsel, hL, rfl⟩ | ⟨_, hsel, rfl⟩ | ⟨hsel, rfl⟩
  case inr.inl | inr.inr.inl | inr.inr.inr.inl => exact .inl rfl
  all_goals refine .inr ⟨rfl, ?_⟩
  · exact syscallRequest_eq_none (by omega) (by omega) (by omega)
  · exact syscallRequest_eq_none (by omega) (by omega) fun _ => hL
  · exact syscallRequest_eq_none (by omega) (by omega) (by omega)
  · simp only [selectors, List.mem_cons, List.not_mem_nil, or_false, not_or] at hsel
    exact syscallRequest_eq_none (by omega) (by omega) (by omega)

/-- R33: an instruction leaves no request pending but one that it did not make. -/
theorem pending_of_exec_next {i : Instr} {s t : State} (h : exec i s = .next t) :
    t.pending = none ∨ (t.pending = s.pending ∧ (i = .syscall → s.syscallRequest = none)) := by
  rcases exec_cases h with ⟨_, _, -, -, hi, rfl⟩ | ⟨_, _, -, -, hi, rfl⟩ | ⟨-, hi, rfl | ⟨_, rfl⟩⟩ | ⟨_, rfl, rfl⟩ |
    ⟨_, _, _, _, hi, -, rfl⟩ | ⟨_, _, _, _, hi, -, rfl⟩ | ⟨rfl, hsys⟩
  case inr.inr.inr.inr.inr.inr =>
    exact (pending_of_syscall_next hsys).imp_right fun ⟨hp, hnone⟩ => ⟨hp, fun _ => hnone⟩
  case inr.inr.inr.inl => exact .inr ⟨rfl, nofun⟩
  case inr.inr.inr.inr.inl | inr.inr.inr.inr.inr.inl =>
    rcases hi with ⟨rfl, -⟩ | ⟨rfl, -⟩ <;> exact .inr ⟨rfl, nofun⟩
  all_goals exact .inr ⟨rfl, fun e => absurd e hi⟩

/-- The request of a Running core is that of the instruction at its pc. -/
theorem request_of_decode {s : State} {i : Instr} (hin : s.inRange s.pc 4 = true)
    (hd : decodeWord (s.mem.readWord s.pc.toNat) = .ok i) :
    s.request = if i = .syscall then s.syscallRequest else none := by
  simp only [State.request, fetch_inRange hin, hd]

theorem request_of_fetch_outOfRange {s : State} (h : s.inRange s.pc 4 = false) : s.request = none := by
  simp only [State.request, fetch_outOfRange h]

theorem request_of_reject {s : State} {e : DecodeReject} (hin : s.inRange s.pc 4 = true)
    (hd : decodeWord (s.mem.readWord s.pc.toNat) = .error e) : s.request = none := by
  simp only [State.request, fetch_inRange hin, hd]

/-- A core that makes no request has none pending. -/
theorem State.Inv.pending_eq_none {s : State} (h : s.Inv) (hreq : s.request = none) : s.pending = none := by
  rw [Option.eq_none_iff_forall_ne_some]
  intro k hk
  have := (h.pendingRequested k hk).2
  rw [hreq] at this
  cases this

/-- R33: no request is pending after a step, since the pending one, if any, was that of the `syscall` just completed. -/
theorem pending_of_step_next {s t : State} (h : s.Inv) (hstep : step s = .next t) : t.pending = none := by
  obtain ⟨-, ⟨hout, rfl⟩ | ⟨hin, -, ⟨i, hd, hex⟩ | ⟨e, hd, rfl⟩⟩⟩ := step_cases hstep
  · exact h.pending_eq_none (request_of_fetch_outOfRange hout)
  · rcases pending_of_exec_next hex with hp | ⟨hp, hnone⟩
    · exact hp
    · rw [hp]
      refine h.pending_eq_none ((request_of_decode hin hd).trans ?_)
      split
      · exact hnone ‹_›
      · rfl
  · exact h.pending_eq_none (request_of_reject hin hd)

/-! ## The run and the pc (spec/40_cycle.md R126 to R130) -/

/-- R126 to R130: an instruction goes on, halts or aborts. It goes on at pc + 4 unless it may transfer; it halts as a
`syscall` with selector 10 or 17; it aborts where it stands, with an error that it can raise. -/
def EndsAs (i : Instr) (s t : State) : Prop :=
  (t.run = s.run ∧ t.exitCode = s.exitCode ∧ (mayTransfer i = false → t.pc = s.pc + 0x00000004#32)) ∨
  (∃ c, i = .syscall ∧ (s.selector = 10 ∨ s.selector = 17) ∧ t = s.halt c) ∨
  (∃ e, mayAbort i s e ∧ t.run = .aborted e ∧ t.exitCode = s.exitCode ∧ t.pc = s.pc)

theorem endsAs_of_syscall_next {s t : State} (h : syscallResult s = .next t) : EndsAs .syscall s t := by
  rcases syscall_next h with ⟨_, _, -, rfl⟩ | ⟨_, _, _, -, -, rfl⟩ | ⟨_, _, -, -, -, -, -, rfl⟩ |
    ⟨_, _, hsel, -, -, -, -, rfl⟩ | ⟨-, -, rfl⟩ | ⟨c, hsel, rfl⟩ | ⟨-, rfl⟩
  case inr.inr.inr.inl => exact .inr (.inr ⟨.writeOutOfRange _, .inr ⟨rfl, hsel⟩, rfl, rfl, rfl⟩)
  case inr.inr.inr.inr.inr.inl => exact .inr (.inl ⟨c, rfl, hsel, rfl⟩)
  case inr.inr.inr.inr.inr.inr => exact .inr (.inr ⟨.unsupportedSyscall _, ⟨rfl, rfl⟩, rfl, rfl, rfl⟩)
  all_goals exact .inl ⟨rfl, rfl, fun _ => rfl⟩

theorem endsAs_of_exec_next {i : Instr} {s t : State} (h : exec i s = .next t) : EndsAs i s t := by
  rcases exec_cases h with ⟨_, _, -, -, -, rfl⟩ | ⟨_, _, -, -, -, rfl⟩ | ⟨hi, -, rfl | ⟨_, rfl⟩⟩ | ⟨_, rfl, rfl⟩ |
    ⟨_, _, _, _, -, -, rfl⟩ | ⟨_, rt, rs, imm, hi, -, rfl⟩ | ⟨rfl, hsys⟩
  case inr.inr.inl.inr => exact .inl ⟨rfl, rfl, fun hno => absurd (hi.symm.trans hno) nofun⟩
  case inr.inr.inr.inl => exact .inl ⟨rfl, rfl, nofun⟩
  case inr.inr.inr.inr.inr.inl =>
    exact .inr (.inr ⟨.writeOutOfRange _, .inl ⟨rt, rs, imm, hi.imp And.left And.left, rfl⟩, rfl, rfl, rfl⟩)
  case inr.inr.inr.inr.inr.inr => exact endsAs_of_syscall_next hsys
  all_goals exact .inl ⟨rfl, rfl, fun _ => rfl⟩

/-! ## The invariant -/

/-- Memory stays canonical and below the ceiling when a run of bytes below the ceiling is written. -/
theorem memory_of_storesRun {i : Instr} {s t : State} (h : s.Inv) (hrun : StoresRun i s t) :
    t.mem.wf = true ∧ ∀ c ∈ t.mem, c.1 < s.memSize.val := by
  rcases hrun with e | ⟨a, bs, e, hbound, -⟩ <;> rw [e]
  · exact ⟨h.memCanonical, h.memBounded⟩
  · exact ⟨writeBytes_wf _ _ _ h.memCanonical, writeBytes_bounded _ _ _ _ h.memBounded hbound⟩

/-- R28: no exit code of a run that has not halted. -/
theorem State.Inv.exitCode_eq_none {s : State} (h : s.Inv) (hrun : s.run = .running) : s.exitCode = none := by
  by_contra hne
  have := h.exitCodeHalted hne
  rw [hrun] at this
  cases this

/-- An exit code only comes with the run's halt. -/
theorem exitCodeHalted_of_endsAs {i : Instr} {s t : State} (h : s.exitCode = none) (hend : EndsAs i s t) :
    t.exitCode ≠ none → t.run = .halted := by
  rcases hend with ⟨-, e, -⟩ | ⟨c, -, -, rfl⟩ | ⟨_, -, -, e, -⟩
  · exact fun hne => absurd (e.trans h) hne
  · exact fun _ => rfl
  · exact fun hne => absurd (e.trans h) hne

/-- Settles O50: no request stays pending (`pending_of_step_next`), and each other clause is kept by what the step did:
aborted the fetch, executed an instruction, or skipped a word. -/
theorem stepKeepsInvariant : Obligations.StepKeepsInvariant := by
  intro s t hinv hstep
  have hpending : t.pending = none := pending_of_step_next hinv hstep
  have hrequested : ∀ k, t.pending = some k → t.run = .running ∧ t.request = some k := by simp [hpending]
  obtain ⟨hrun, ⟨-, rfl⟩ | ⟨-, -, ⟨i, -, hex⟩ | ⟨-, -, rfl⟩⟩⟩ := step_cases hstep
  · exact ⟨hinv.memCanonical, hinv.memBounded, hinv.zeroStored, fun hne => absurd (hinv.exitCode_eq_none hrun) hne,
      hrequested⟩
  · obtain ⟨hwf, hbound⟩ := memory_of_storesRun hinv (storesRun_of_exec_next hex)
    have hsize : t.memSize = s.memSize := (takesAtMostOne_of_exec_next hex).2
    exact ⟨hwf, hsize ▸ hbound, (zeroStored_of_exec_next hex).trans hinv.zeroStored,
      exitCodeHalted_of_endsAs (hinv.exitCode_eq_none hrun) (endsAs_of_exec_next hex), hrequested⟩
  · exact ⟨hinv.memCanonical, hinv.memBounded, hinv.zeroStored, fun hne => absurd (hinv.exitCode_eq_none hrun) hne,
      hrequested⟩

end Sys2Proof.Machine
end

section
/-! PROOFS. The statements about every instruction and every step, from what each aspect of the state keeps. -/

namespace Sys2Proof.Machine

/-- Settles O4: only the destination is written (`regs_of_exec_next`), and another register reads as before. -/
theorem onlyDestinationRegisterChanges : Obligations.OnlyDestinationRegisterChanges := by
  intro i s t h r hr
  rcases regs_of_exec_next h with e | ⟨d, v, hd, e⟩
  · exact readReg_congr e r
  · have hne : r ≠ d := fun e => hr (e ▸ hd)
    rw [readReg_congr e, readReg_writeReg, if_neg fun hrd => hne hrd.1]

/-- Settles O44: an address outside the instruction's bytes is outside the one run it writes. -/
theorem onlyStoresChangeMemory : Obligations.OnlyStoresChangeMemory := by
  intro i s t h c hc
  rcases storesRun_of_exec_next h with e | ⟨a, bs, e, -, hmay⟩ <;> rw [e]
  refine read_writeBytes_other _ _ _ ?_
  by_contra hin
  exact hc (hmay c (by omega) (by omega))

/-- Settles O43: the pc and the run state are `endsAs_of_exec_next`, the pending request `pending_of_exec_next`. -/
theorem defaultAdvanceIsFour : Obligations.DefaultAdvanceIsFour := by
  intro i s t hrun hno h
  refine ⟨(pending_of_exec_next h).imp_right And.left, ?_⟩
  rcases endsAs_of_exec_next h with ⟨hr, -, hpc⟩ | ⟨c, -, -, rfl⟩ | ⟨e, -, hr, -, hpc⟩
  · exact .inl ⟨hpc hno, .inl (hr.trans hrun)⟩
  · exact .inl ⟨rfl, .inr rfl⟩
  · exact .inr ⟨hpc, e, hr⟩

/-- Settles O49: an aborted fetch and a skipped word take no answer, an instruction at most the oldest one. -/
theorem stepsConsumeInputInOrder : Obligations.StepsConsumeInputInOrder := by
  intro s t h
  obtain ⟨-, ⟨-, rfl⟩ | ⟨-, -, ⟨i, -, hex⟩ | ⟨-, -, rfl⟩⟩⟩ := step_cases h
  · exact ⟨.inl rfl, rfl⟩
  · exact takesAtMostOne_of_exec_next hex
  · exact ⟨.inl rfl, rfl⟩

/-- Settles O45: of the ways a step can end only a halting `syscall` leaves a Halted core. -/
theorem onlyHaltingSyscallsHalt : Obligations.OnlyHaltingSyscallsHalt := by
  intro s t h hhalted
  obtain ⟨hrun, ⟨-, rfl⟩ | ⟨-, -, ⟨i, hd, hex⟩ | ⟨-, -, rfl⟩⟩⟩ := step_cases h
  · cases hhalted
  · rcases endsAs_of_exec_next hex with ⟨hr, -, -⟩ | ⟨c, rfl, hsel, rfl⟩ | ⟨_, -, hr, -, -⟩
    · exact absurd (hhalted.symm.trans (hr.trans hrun)) nofun
    · exact ⟨hd, hsel.imp (selector_eq_iff s 10 (by omega)).1 (selector_eq_iff s 17 (by omega)).1, rfl⟩
    · exact absurd (hhalted.symm.trans hr) nofun
  · exact absurd (hhalted.symm.trans hrun) nofun

/-- Settles O46: a step aborts in its fetch, or as `EndsAs` says of the instruction it executes. -/
theorem onlyListedErrorsAbort : Obligations.OnlyListedErrorsAbort := by
  intro s t e h haborted
  obtain ⟨hrun, ⟨hout, rfl⟩ | ⟨-, -, ⟨i, hd, hex⟩ | ⟨-, -, rfl⟩⟩⟩ := step_cases h
  · cases haborted
    exact .inl ⟨(inRange_eq_false_iff s s.pc 4).1 hout, rfl⟩
  · rcases endsAs_of_exec_next hex with ⟨hr, -, -⟩ | ⟨c, -, -, rfl⟩ | ⟨e', hmay, hr, -, -⟩
    · exact absurd (haborted.symm.trans (hr.trans hrun)) nofun
    · cases haborted
    · cases haborted.symm.trans hr
      exact .inr ⟨i, hd, hmay⟩
  · exact absurd (haborted.symm.trans hrun) nofun

end Sys2Proof.Machine
end

section
/-! PROOFS. The cycle: when a step exists, and which instruction it runs (spec/40_cycle.md R120 to R125, spec/10_state.md
R27, R33). -/

namespace Sys2Proof.Machine

/-- R27, R120: no cycle runs from Halted or Aborted. -/
theorem step_of_not_running {s : State} (h : s.run ≠ .running) : step s = .fault .notRunning := by
  unfold step
  split
  · exact absurd ‹_› h
  · rfl
  · rfl

/-- R125: a Running core skips a word that no row selects. -/
theorem step_of_reject {s : State} {e : DecodeReject} (hr : s.run = .running) (hin : s.inRange s.pc 4 = true)
    (hd : decodeWord (s.mem.readWord s.pc.toNat) = .error e) : step s = .next s.skipUnimplemented := by
  simp only [step, hr, fetch_inRange hin, executeWord, hd]

/-- R33: a core makes a request exactly at a `syscall` that can be fetched. -/
theorem request_eq_some {s : State} {k : InputRequest} (h : s.request = some k) :
    s.inRange s.pc 4 = true ∧ decodeWord (s.mem.readWord s.pc.toNat) = .ok .syscall ∧ s.syscallRequest = some k := by
  rcases fetch_cases s with ⟨hin, -⟩ | ⟨hout, -⟩
  · rcases hd : decodeWord (s.mem.readWord s.pc.toNat) with e | i
    · rw [request_of_reject hin hd] at h
      cases h
    · rw [request_of_decode hin hd] at h
      split at h
      · subst i
        exact ⟨hin, rfl, h⟩
      · cases h
  · rw [request_of_fetch_outOfRange hout] at h
    cases h

/-- R120: a Running core that makes a request runs the `syscall` that made it. -/
theorem step_of_request {s : State} {k : InputRequest} (hrun : s.run = .running) (h : s.request = some k) :
    step s = exec .syscall s := by
  obtain ⟨hin, hd, -⟩ := request_eq_some h
  exact step_of_decode hrun hin hd

/-- R33, R212: a Running core waits for the answer to its request. -/
theorem step_of_unanswered {s : State} {k : InputRequest} (hrun : s.run = .running) (h : s.request = some k)
    (hn : ¬ s.answered k) : step s = .fault (.awaitingHost k) := by
  obtain ⟨-, -, hreq⟩ := request_eq_some h
  rw [step_of_request hrun h, syscall_of_unanswered hreq hn]

/-- Settles O42: a Running core that waits for nothing aborts its fetch, skips its word, or executes an instruction that
is enabled (`exec_enabled`). -/
theorem stepsExistExactlyWhenEnabled : Obligations.StepsExistExactlyWhenEnabled := by
  intro s
  refine ⟨step_of_not_running, fun k hrun hk hn => step_of_unanswered hrun hk hn, fun hrun hans => ?_⟩
  rcases fetch_cases s with ⟨hin, -⟩ | ⟨hout, -⟩
  · rcases hd : decodeWord (s.mem.readWord s.pc.toNat) with e | i
    · exact ⟨_, step_of_reject hrun hin hd⟩
    · rw [step_of_decode hrun hin hd]
      rcases exec_enabled i s with hnext | ⟨rfl, k, hk, hn, -⟩
      · exact hnext
      · have hreq : s.request = some k := (request_of_decode hin hd).trans hk
        exact absurd (hans k hreq) hn
  · exact ⟨_, step_of_fetch_outOfRange hrun hout⟩

/-- Settles O40: the skipped word's diagnostic and the advance of the pc are all that `skipUnimplemented` does. -/
theorem unimplementedWordsAreSkipped : Obligations.UnimplementedWordsAreSkipped := by
  intro s e hrun hin hd
  exact ⟨_, step_of_reject hrun ((inRange_iff s s.pc 4).2 hin) hd, rfl, rfl, fun _ => rfl, fun _ => rfl,
    ⟨rfl, rfl, rfl, rfl⟩, rfl, rfl⟩

/-- R53: four bytes decode as the word they make. -/
theorem decodeWord_of_decode {b0 b1 b2 b3 : Byte} {rest rest' : List Byte} {i : Instr}
    (h : decode (b0 :: b1 :: b2 :: b3 :: rest) = .ok (i, rest')) : decodeWord (wordOfBytes b0 b1 b2 b3) = .ok i := by
  rw [decode_cons] at h
  rcases hd : decodeWord (wordOfBytes b0 b1 b2 b3) with e | j
  · rw [hd] at h
    cases h
  · rw [hd] at h
    cases h
    rfl

/-- A word is the table word of its own number. -/
theorem tableWord_toNat (w : Word) : tableWord 32 w.toNat = w := by
  rw [tableWord, Nat.mod_eq_of_lt w.isLt, BitVec.ofNat_toNat, BitVec.setWidth_eq]

/-- A word can be fetched at `fetchAddress`, since no memory is smaller than a word. -/
theorem inRange_fetchAddress (s : State) : s.inRange s.fetchAddress 4 = true := by
  have hmin : 4 ≤ s.memSize.val := s.memSize.atLeast
  unfold State.fetchAddress
  split
  · assumption
  · exact (inRange_iff s _ 4).2 (by simpa using hmin)

/-- Settles O39: the four bytes at the pc make the fetched word, and after `withFetchWord` they are those of the word
placed there. -/
theorem stepRunsTheDecodedInstruction : Obligations.StepRunsTheDecodedInstruction := by
  intro s i w
  constructor
  · intro hrun hin hd
    exact step_of_decode hrun ((inRange_iff s s.pc 4).2 hin) (decodeWord_of_decode hd)
  · intro hwf hd
    have hword : (s.withFetchWord 32 w.toNat).mem.readWord (s.withFetchWord 32 w.toNat).pc.toNat = w :=
      (readWord_writeBytes s.mem _ _ hwf).trans (tableWord_toNat w)
    exact step_of_decode (s := s.withFetchWord 32 w.toNat) rfl (inRange_fetchAddress s) (hword.symm ▸ hd)

/-! ## The host's transactions (spec/10_state.md R35) -/

/-- Holding the request that a Running core makes keeps the invariant. -/
theorem inv_of_pending {s : State} {k : InputRequest} (h : s.Inv) (hrun : s.run = .running) (hreq : s.request = some k) :
    State.Inv { s with pending := some k } := by
  refine ⟨h.memCanonical, h.memBounded, h.zeroStored, h.exitCodeHalted, fun k' hk' => ?_⟩
  cases hk'
  exact ⟨hrun, hreq⟩

/-- Settles O38: `State.ask` sets the request of a waiting core or nothing, and the invariant does not speak of the
input stream. -/
theorem hostTransactionsKeepInvariant : Obligations.HostTransactionsKeepInvariant := by
  intro s a
  rcases ask_cases s with ⟨k, hwait, hask⟩ | ⟨-, hask⟩ <;> rw [hask]
  · obtain ⟨hrun, hreq, -⟩ := step_waits hwait
    exact ⟨fun h => ⟨inv_of_pending h hrun hreq, ⟨h.memCanonical, h.memBounded, h.zeroStored, h.exitCodeHalted,
      h.pendingRequested⟩⟩, rfl, rfl⟩
  · exact ⟨fun h => ⟨h, ⟨h.memCanonical, h.memBounded, h.zeroStored, h.exitCodeHalted, h.pendingRequested⟩⟩, rfl, rfl⟩

/-! ## Waiting for the host (spec/44_syscall.md R212) -/

/-- R215, R216, R219: which selector makes which request. -/
theorem syscallRequest_eq_some_iff (s : State) (k : InputRequest) :
    s.syscallRequest = some k ↔ (s.selector = 5 ∧ k = .int) ∨ (s.selector = 12 ∧ k = .char) ∨
      (s.selector = 8 ∧ s.lineBound ≥ 1 ∧ k = .line s.lineLimit) := by
  unfold State.syscallRequest
  split
  case h_1 hsel | h_2 hsel | h_3 hsel => simp [hsel, eq_comm]
  case h_4 h5 h8 h12 => simp [show s.selector ≠ 5 from h5, show s.selector ≠ 8 from h8, show s.selector ≠ 12 from h12]

/-- Settles O36: the selector makes the request (`syscallRequest_eq_some_iff`), and neither `exec` nor the step, before
and after `State.ask`, is enabled while it is unanswered. -/
theorem readWaitsForTheHost : Obligations.ReadWaitsForTheHost := by
  intro s k hsel hn
  have hsys : s.syscallRequest = some k :=
    (syscallRequest_eq_some_iff s k).2 (hsel.imp (And.imp_left (selector_eq_iff s 5 (by omega)).2)
      (Or.imp (And.imp_left (selector_eq_iff s 12 (by omega)).2) (And.imp_left (selector_eq_iff s 8 (by omega)).2)))
  refine ⟨syscall_of_unanswered hsys hn, fun w hrun hfetch hd => ?_⟩
  have hreq : s.request = some k := by simp only [State.request, hfetch, hd, if_true, hsys]
  have hwait : step s = .fault (.awaitingHost k) := step_of_unanswered hrun hreq hn
  have hask : s.ask = { s with pending := some k } := by rw [State.ask, hwait]
  refine ⟨hwait, hask, ?_⟩
  rw [hask]
  exact step_of_unanswered (s := { s with pending := some k }) hrun hreq hn

end Sys2Proof.Machine
end

section
/-! PROOFS. The syscalls, selector by selector (spec/44_syscall.md R213 to R220). -/

namespace Sys2Proof.Machine

/-! ## Output (R211, R213, R214, R218) -/

/-- R211, R242: a `syscall` that appends to the sent streams and advances changes nothing else. -/
theorem syscallSends_of_eq {s : State} {bytes : List Byte} {ds : List Diag}
    (h : syscallResult s = .next (State.advance { s with output := s.output ++ bytes, diags := s.diags ++ ds })) :
    SyscallSends s bytes ds :=
  ⟨_, (exec_syscall s).trans h, rfl, rfl, rfl, rfl, fun _ => rfl, fun _ => rfl, rfl, rfl, rfl, rfl⟩

/-- R211: so does one that sends bytes and no diagnostic. -/
theorem syscallSends_of_hostOut {s : State} {bytes : List Byte} (h : syscallResult s = .next (s.hostOut bytes).advance) :
    SyscallSends s bytes [] :=
  syscallSends_of_eq (h.trans (by rw [List.append_nil]; rfl))

/-- Settles O25: selector 1 is a `hostOut` of the numeral. -/
theorem printIntSendsTheNumeral : Obligations.PrintIntSendsTheNumeral := by
  intro s h
  exact syscallSends_of_hostOut (syscall_printInt ((selector_eq_iff s 1 (by omega)).2 h))

/-- Settles O29: selector 11 is a `hostOut` of the low byte. -/
theorem printCharSendsTheLowByte : Obligations.PrintCharSendsTheLowByte := by
  intro s h
  exact syscallSends_of_hostOut (syscall_printChar ((selector_eq_iff s 11 (by omega)).2 h))

/-- The `n` bytes that stand from address `a` on. -/
def Memory.run (m : Memory) (a n : Nat) : List Byte := (List.range n).map fun k => m.read (a + k)

theorem run_succ (m : Memory) (a n : Nat) : m.run a (n + 1) = m.read a :: m.run (a + 1) n := by
  rw [Memory.run, List.range_succ_eq_map, List.map_cons, List.map_map, Nat.add_zero, Memory.run]
  refine congrArg _ (List.map_congr_left fun k _ => ?_)
  rw [Function.comp_apply, Nat.succ_eq_add_one, Nat.add_right_comm, Nat.add_assoc]

/-- R214: the loop takes `n` bytes that are not zero and goes on after them. -/
theorem stringAt_run {m : Memory} {a n : Nat} (left : Nat) (h : ∀ k, k < n → m.read (a + k) ≠ 0x00#8) :
    m.stringAt (n + left) a = (m.run a n ++ (m.stringAt left (a + n)).1, (m.stringAt left (a + n)).2) := by
  induction n generalizing a with
  | zero => rw [Nat.zero_add]; rfl
  | succ n ih =>
    have hfirst : m.read a ≠ 0x00#8 := h 0 (Nat.succ_pos n)
    have hrest : ∀ k, k < n → m.read (a + 1 + k) ≠ 0x00#8 := fun k hk => by
      rw [Nat.add_assoc, Nat.add_comm 1 k]
      exact h (k + 1) (Nat.succ_lt_succ hk)
    rw [Nat.add_right_comm, stringAt_succ hfirst, ih hrest, run_succ, Nat.add_assoc, Nat.add_comm 1 n, List.cons_append]

/-- R214: a string that ends at a zero byte is sent without a diagnostic. -/
theorem sysPrintString_ends {s : State} {bytes : List Byte}
    (h : s.mem.stringAt (s.memSize.val - (s.readReg Reg.a0).toNat) (s.readReg Reg.a0).toNat = (bytes, false)) :
    sysPrintString s = (s.hostOut bytes).advance := by
  rw [sysPrintString, h]

/-- R214: a string that runs to the ceiling is sent with one. -/
theorem sysPrintString_ceiling {s : State} {bytes : List Byte}
    (h : s.mem.stringAt (s.memSize.val - (s.readReg Reg.a0).toNat) (s.readReg Reg.a0).toNat = (bytes, true)) :
    sysPrintString s =
      ((s.hostOut bytes).diag (.readOutOfRange (s.stringFaultAddress (s.readReg Reg.a0)))).advance := by
  rw [sysPrintString, h]

/-- Settles O27: the loop takes the `n` bytes (`stringAt_run`) and stops at the zero byte after them. -/
theorem printStringSendsTheString : Obligations.PrintStringSendsTheString := by
  intro s n hsel hn hbytes hzero
  have hleft : s.memSize.val - (s.readReg Reg.a0).toNat =
      n + (s.memSize.val - (s.readReg Reg.a0).toNat - n - 1 + 1) := by omega
  have hloop : s.mem.stringAt (s.memSize.val - (s.readReg Reg.a0).toNat) (s.readReg Reg.a0).toNat =
      (s.mem.run (s.readReg Reg.a0).toNat n, false) := by
    rw [hleft, stringAt_run _ hbytes, stringAt_zero hzero, List.append_nil]
  have hsys := syscall_printString ((selector_eq_iff s 4 (by omega)).2 hsel)
  rw [sysPrintString_ends hloop] at hsys
  exact syscallSends_of_hostOut hsys

/-- R214, R216: the first address at or above both `a` and the ceiling. -/
theorem ofNat_max_eq_ite (a : Word) (n : Nat) :
    BitVec.ofNat 32 (max a.toNat n) = if a.toNat < n then BitVec.ofNat 32 n else a := by
  split
  · rw [max_eq_right (by omega)]
  · rw [max_eq_left (by omega), BitVec.ofNat_toNat, BitVec.setWidth_eq]

/-- Settles O28: the loop takes every byte up to the ceiling (`stringAt_run` with none left). -/
theorem printStringStopsAtTheCeiling : Obligations.PrintStringStopsAtTheCeiling := by
  intro s hsel hbytes
  have hloop : s.mem.stringAt (s.memSize.val - (s.readReg Reg.a0).toNat) (s.readReg Reg.a0).toNat =
      (s.mem.run (s.readReg Reg.a0).toNat (s.memSize.val - (s.readReg Reg.a0).toNat), true) := by
    have h := stringAt_run (m := s.mem) (a := (s.readReg Reg.a0).toNat)
      (n := s.memSize.val - (s.readReg Reg.a0).toNat) 0 fun k hk => hbytes _ (by omega) (by omega)
    rwa [Nat.add_zero, Memory.stringAt, List.append_nil] at h
  have hsys := syscall_printString ((selector_eq_iff s 4 (by omega)).2 hsel)
  rw [sysPrintString_ceiling hloop] at hsys
  rw [← ofNat_max_eq_ite]
  exact syscallSends_of_eq hsys

/-! ## Integers and characters (R215, R219) -/

/-- R212: a read that takes an answer and writes it to x[2] changes nothing else. -/
theorem syscallReads_of_readInput {s : State} {k : InputRequest} {pick : HostAnswer → Option Word} {a : HostAnswer}
    {v : Word} {rest : List HostAnswer}
    (h : syscallResult s = s.readInput k pick fun v t => (t.writeReg Reg.v0 v).advance)
    (hin : s.input = a :: rest) (hv : pick a = some v) : SyscallReads s v rest :=
  ⟨_, (exec_syscall s).trans (h.trans (readInput_of_answer hin hv)),
    readReg_writeReg { s with input := rest, pending := none } Reg.v0 v, rfl, rfl, rfl, fun _ => rfl, rfl, rfl, rfl, rfl,
    rfl⟩

theorem syscallReads_int {s : State} {v : Word} {rest : List HostAnswer} (hsel : s.selector = 5)
    (hin : s.input = .int v :: rest) : SyscallReads s v rest :=
  syscallReads_of_readInput (syscall_readInt hsel) hin rfl

theorem syscallReads_char {s : State} {b : Byte} {rest : List HostAnswer} (hsel : s.selector = 12)
    (hin : s.input = .char b :: rest) : SyscallReads s (b.setWidth 32) rest :=
  syscallReads_of_readInput (syscall_readChar hsel) hin rfl

theorem syscallReads_endOfInput {s : State} {v : Word} {rest : List HostAnswer} (hsel : s.selector = 12)
    (hin : s.input = .endOfInput v :: rest) : SyscallReads s v rest :=
  syscallReads_of_readInput (syscall_readChar hsel) hin rfl

/-- Settles O30: each of the three answers is one to its selector's request. -/
theorem readIntAndCharTakeTheAnswer : Obligations.ReadIntAndCharTakeTheAnswer := by
  intro s v b rest
  refine ⟨fun h => ?_, fun h => ?_, fun h => ?_⟩
  · exact syscallReads_int ((selector_eq_iff s 5 (by omega)).2 h)
  · exact syscallReads_char ((selector_eq_iff s 12 (by omega)).2 h)
  · exact syscallReads_endOfInput ((selector_eq_iff s 12 (by omega)).2 h)

/-! ## Lines (R216) -/

/-- A run of bytes written to a canonical memory stands there, and every other byte is as before. -/
theorem storesBytes_of_writeBytes {s t : State} {a : Nat} {bytes : List Byte} (hwf : s.mem.wf = true)
    (h : t.mem = s.mem.writeBytes a bytes) : StoresBytes s t a bytes := by
  refine ⟨fun k hk => ?_, fun b hb => ?_⟩ <;> rw [h]
  · exact read_writeBytes s.mem a bytes hwf k hk
  · exact read_writeBytes_other s.mem a bytes hb

/-- R216: with a line within the limit, `read_string` takes it and fills its buffer. -/
theorem syscall_of_line {s : State} {bytes : List Byte} {rest : List HostAnswer} (hsel : s.selector = 8)
    (hL : s.lineBound ≥ 1) (hlen : bytes.length ≤ s.lineLimit) (hin : s.input = .line bytes :: rest) :
    syscallResult s = .next (State.fillBuffer { s with input := rest, pending := none } bytes) := by
  have hpick : HostAnswer.asLine s.lineLimit (.line bytes) = some bytes := if_pos hlen
  rw [syscall_readString hsel, sysReadString, if_pos hL, readInput_of_answer hin hpick]

theorem syscallStoresLine_of_line {s : State} {bytes : List Byte} {rest : List HostAnswer} (hwf : s.mem.wf = true)
    (hsel : s.selector = 8) (hL : s.lineBound ≥ 1) (hlen : bytes.length ≤ s.lineLimit)
    (hin : s.input = .line bytes :: rest) (hroom : (s.readReg Reg.a0).toNat + bytes.length + 1 ≤ s.memSize.val) :
    SyscallStoresLine s bytes rest := by
  have hsys := syscall_of_line hsel hL hlen hin
  rw [fillBuffer_eq] at hsys
  refine ⟨_, (exec_syscall s).trans (hsys.trans (congrArg _ (if_pos hroom))), storesBytes_of_writeBytes hwf rfl,
    fun _ => rfl, ?_⟩
  exact ⟨rfl, rfl, rfl, rfl, rfl, rfl, rfl, rfl⟩

theorem syscallLineAborts_of_line {s : State} {bytes : List Byte} {rest : List HostAnswer} (hwf : s.mem.wf = true)
    (hsel : s.selector = 8) (hL : s.lineBound ≥ 1) (hlen : bytes.length ≤ s.lineLimit)
    (hin : s.input = .line bytes :: rest) (hroom : s.memSize.val < (s.readReg Reg.a0).toNat + bytes.length + 1) :
    SyscallLineAborts s bytes rest := by
  have hsys := syscall_of_line hsel hL hlen hin
  rw [fillBuffer_eq] at hsys
  refine ⟨_, (exec_syscall s).trans (hsys.trans (congrArg _ (if_neg (Nat.not_le_of_lt hroom)))), ?_,
    storesBytes_of_writeBytes hwf rfl, fun _ => rfl, ?_⟩
  · rw [← ofNat_max_eq_ite]
    rfl
  · exact ⟨rfl, rfl, rfl, rfl, rfl, rfl, rfl⟩

/-- R216: a line of at most L − 1 bytes is within the limit, and L is at least 1. -/
theorem line_within_limit {s : State} {bytes : List Byte} (h : (bytes.length : Int) ≤ (s.readReg Reg.a1).toInt - 1) :
    s.lineBound ≥ 1 ∧ bytes.length ≤ s.lineLimit := by
  have hbound : (bytes.length : Int) ≤ s.lineBound - 1 := h
  have hL : s.lineBound ≥ 1 := by omega
  have := lineLimit_add_one hL
  exact ⟨hL, by omega⟩

/-- Settles O31: the line is within the limit (`line_within_limit`) and has room (`syscallStoresLine_of_line`). -/
theorem readStringFillsTheBuffer : Obligations.ReadStringFillsTheBuffer := by
  intro s bytes rest hwf hsel hin hlen hroom
  obtain ⟨hL, hlimit⟩ := line_within_limit hlen
  exact syscallStoresLine_of_line hwf ((selector_eq_iff s 8 (by omega)).2 hsel) hL hlimit hin hroom

/-- Settles O32: the line is within the limit (`line_within_limit`) and has no room (`syscallLineAborts_of_line`). -/
theorem readStringAbortsAtTheCeiling : Obligations.ReadStringAbortsAtTheCeiling := by
  intro s bytes rest hwf hsel hin hlen hroom
  obtain ⟨hL, hlimit⟩ := line_within_limit hlen
  exact syscallLineAborts_of_line hwf ((selector_eq_iff s 8 (by omega)).2 hsel) hL hlimit hin hroom

/-- R126: an instruction that only advances goes to pc + 4 and changes nothing else. -/
theorem transfersTo_of_advance {i : Instr} {s : State} (h : exec i s = .next s.advance) :
    TransfersTo i s (s.pc + 0x00000004#32) :=
  transfersTo_of_jumpTo h

/-- Settles O33: with L ≤ 0 selector 8 is the advance. -/
theorem readStringOfNoLengthDoesNothing : Obligations.ReadStringOfNoLengthDoesNothing := by
  intro s hsel hL
  have hno : ¬ s.lineBound ≥ 1 := by
    have hbound : s.lineBound ≤ 0 := hL
    omega
  refine transfersTo_of_advance ?_
  rw [exec_syscall, syscall_readString ((selector_eq_iff s 8 (by omega)).2 hsel), sysReadString, if_neg hno]

/-! ## The end of the run (R217, R220) -/

/-- R128: a `syscall` whose whole effect is `halt` ends the run with that code. -/
theorem syscallHalts_of_halt {s : State} {c : Option Int} (h : syscallResult s = .next (s.halt c)) : SyscallHalts s c :=
  ⟨_, (exec_syscall s).trans h, rfl, rfl, rfl, fun _ => rfl, fun _ => rfl, ⟨rfl, rfl, rfl⟩, rfl, rfl⟩

/-- Settles O34: selectors 10 and 17 are a `halt` without and with a code. -/
theorem haltingSelectors : Obligations.HaltingSelectors := by
  intro s
  constructor
  · intro h
    exact syscallHalts_of_halt (syscall_exit ((selector_eq_iff s 10 (by omega)).2 h))
  · intro h
    exact syscallHalts_of_halt (syscall_exitWithCode ((selector_eq_iff s 17 (by omega)).2 h))

/-! ## The end of a wait (R212, R253) -/

/-- Settles O37: the pending request is that of the `syscall` at the pc, which tells the selector; with the answer at the
head of the input stream the selector's own law applies. -/
theorem theAnswerEndsTheWait : Obligations.TheAnswerEndsTheWait := by
  intro s k hinv hpend hempty
  obtain ⟨hrun, hreq⟩ := hinv.pendingRequested k hpend
  have hsys := (syscallRequest_eq_some_iff s k).1 (request_eq_some hreq).2.2
  have hn : ¬ s.answered k := by simp [State.answered, hempty]
  have hhead : ∀ a, (s.answer a).input = [a] := fun a => by rw [answer_input, hempty, List.nil_append]
  refine ⟨hrun, step_of_unanswered hrun hreq hn, fun a => step_of_request (s := s.answer a) hrun hreq, ?_⟩
  rcases hsys with ⟨hsel, rfl⟩ | ⟨hsel, rfl⟩ | ⟨hsel, hL, rfl⟩
  · exact ⟨fun v _ => syscallReads_int hsel (hhead _), nofun, nofun, nofun⟩
  · exact ⟨nofun, fun b _ => syscallReads_char hsel (hhead _), fun v _ => syscallReads_endOfInput hsel (hhead _), nofun⟩
  · refine ⟨nofun, nofun, nofun, fun limit bytes hk hlen => ?_⟩
    cases hk
    exact ⟨syscallStoresLine_of_line (s := s.answer (.line bytes)) hinv.memCanonical hsel hL hlen (hhead _),
      syscallLineAborts_of_line (s := s.answer (.line bytes)) hinv.memCanonical hsel hL hlen (hhead _)⟩

end Sys2Proof.Machine
end

section
/-! PROOFS. Aborts are precise, and the sent streams are never read back (spec/40_cycle.md R130, spec/10_state.md R34). -/

namespace Sys2Proof.Machine

/-! ## What an aborting step leaves -/

/-- R216: the state in which a `read_string` has taken a line and aborts at the ceiling. -/
def State.lineAborted (s : State) (bytes : List Byte) (rest : List HostAnswer) (e : FatalError) : State :=
  State.abort { s with
    input := rest, pending := none,
    mem := s.mem.writeBytes (s.readReg Reg.a0).toNat (bytes.take (s.memSize.val - (s.readReg Reg.a0).toNat)) } e

/-- R130: a `syscall` that aborts changes nothing but the run state, or it is a `read_string` that has taken a line. -/
theorem abort_of_syscall_next {s t : State} {e : FatalError} (hrun : s.run = .running) (h : syscallResult s = .next t)
    (ht : t.run = .aborted e) :
    t = s.abort e ∨ (s.selector = 8 ∧ ∃ bytes rest, s.input = .line bytes :: rest ∧ t = s.lineAborted bytes rest e) := by
  have goesOn : t.run ≠ s.run := by rw [ht, hrun]; nofun
  rcases syscall_next h with ⟨_, _, -, rfl⟩ | ⟨_, _, _, -, -, rfl⟩ | ⟨_, _, -, -, -, -, -, rfl⟩ |
    ⟨bytes, rest, hsel, -, hin, -, -, rfl⟩ | ⟨-, -, rfl⟩ | ⟨_, -, rfl⟩ | ⟨-, rfl⟩
  case inr.inr.inr.inl =>
    cases ht
    exact .inr ⟨hsel, bytes, rest, hin, rfl⟩
  case inr.inr.inr.inr.inr.inl => cases ht
  case inr.inr.inr.inr.inr.inr =>
    cases ht
    exact .inl rfl
  all_goals exact absurd rfl goesOn

/-- R130: so does any instruction that aborts. -/
theorem abort_of_exec_next {i : Instr} {s t : State} {e : FatalError} (hrun : s.run = .running) (h : exec i s = .next t)
    (ht : t.run = .aborted e) :
    t = s.abort e ∨ (i = .syscall ∧ s.selector = 8 ∧
      ∃ bytes rest, s.input = .line bytes :: rest ∧ t = s.lineAborted bytes rest e) := by
  have goesOn : t.run ≠ s.run := by rw [ht, hrun]; nofun
  rcases exec_cases h with ⟨_, _, -, -, -, rfl⟩ | ⟨_, _, -, -, -, rfl⟩ | ⟨-, -, rfl | ⟨_, rfl⟩⟩ | ⟨_, -, rfl⟩ |
    ⟨_, _, _, _, -, -, rfl⟩ | ⟨_, _, _, _, -, -, rfl⟩ | ⟨rfl, hsys⟩
  case inr.inr.inr.inr.inr.inl =>
    cases ht
    exact .inl rfl
  case inr.inr.inr.inr.inr.inr => exact (abort_of_syscall_next hrun hsys ht).imp_right fun hline => ⟨rfl, hline⟩
  all_goals exact absurd rfl goesOn

/-- Settles O47: an aborted fetch is an `abort` and nothing else, and an instruction aborts as `abort_of_exec_next` says;
the bytes outside a `read_string`'s buffer are those of `onlyStoresChangeMemory`. -/
theorem abortsArePrecise : Obligations.AbortsArePrecise := by
  intro s t e h ht
  obtain ⟨hrun, ⟨-, rfl⟩ | ⟨-, -, ⟨i, hd, hex⟩ | ⟨-, -, rfl⟩⟩⟩ := step_cases h
  · cases ht
    exact .inl rfl
  · rcases abort_of_exec_next hrun hex ht with rfl | ⟨rfl, hsel, bytes, rest, hin, rfl⟩
    · exact .inl rfl
    · exact .inr ⟨hd, (selector_eq_iff s 8 (by omega)).1 hsel, bytes, rest, hin, rfl, rfl,
        onlyStoresChangeMemory .syscall s _ hex, fun hwf => storesBytes_of_writeBytes hwf rfl, rfl, fun _ => rfl, rfl, rfl,
        rfl, rfl⟩
  · exact absurd (ht.symm.trans hrun) nofun

/-! ## The sent streams -/

/-- The state with other bytes and diagnostics sent before. -/
def State.withSent (s : State) (o : List Byte) (d : List Diag) : State := { s with output := o, diags := d }

/-- From `s`, whatever was sent before, `f` answers `t` with the same bytes and diagnostics sent after it. -/
def SendsOnly (f : State → Host.Outcome State Fault Refusal) (s t : State) : Prop :=
  ∃ o d, ∀ o' d', f (s.withSent o' d') = .next (t.withSent (o' ++ o) (d' ++ d))

theorem sendsOnly_of_silent {f : State → Host.Outcome State Fault Refusal} {s t : State}
    (h : ∀ o' d', f (s.withSent o' d') = .next (t.withSent o' d')) : SendsOnly f s t :=
  ⟨[], [], fun o' d' => by rw [List.append_nil, List.append_nil, h]⟩

/-- R55: a load sends at most the diagnostic of its address. -/
theorem sendsOnly_loadTo {n : Width} {rt rs : Reg} {imm : Imm} {s t : State} (h : loadTo n rt rs imm s = .next t) :
    SendsOnly (loadTo n rt rs imm) s t := by
  by_cases hin : s.inRange (s.effectiveAddress rs imm) n.bytes = true
  · rw [loadTo_inRange hin] at h
    cases h
    exact sendsOnly_of_silent fun o' d' => loadTo_inRange (s := s.withSent o' d') hin
  · rw [Bool.not_eq_true] at hin
    rw [loadTo_outOfRange hin] at h
    cases h
    exact ⟨[], [.readOutOfRange (s.effectiveAddress rs imm)], fun o' d' => by
      rw [List.append_nil]; exact loadTo_outOfRange (s := s.withSent o' d') hin⟩

/-- R56: a store sends nothing. -/
theorem sendsOnly_storeFrom {n : Width} {rt rs : Reg} {imm : Imm} {s t : State} (h : storeFrom n rt rs imm s = .next t) :
    SendsOnly (storeFrom n rt rs imm) s t := by
  by_cases hin : s.inRange (s.effectiveAddress rs imm) n.bytes = true
  · rw [storeFrom_inRange hin] at h
    cases h
    exact sendsOnly_of_silent fun o' d' => storeFrom_inRange (s := s.withSent o' d') hin
  · rw [Bool.not_eq_true] at hin
    rw [storeFrom_outOfRange hin] at h
    cases h
    exact sendsOnly_of_silent fun o' d' => storeFrom_outOfRange (s := s.withSent o' d') hin

/-- R170: a branch sends nothing. -/
theorem sendsOnly_branchIf {c : Cond} {rs rt : Reg} {imm : Imm} {s t : State} (h : branchIf c rs rt imm s = .next t) :
    SendsOnly (branchIf c rs rt imm) s t := by
  rcases hc : c.holds (signed (s.readReg rs)) (signed (s.readReg rt))
  · rw [branchIf_notTaken hc] at h
    cases h
    exact sendsOnly_of_silent fun o' d' => branchIf_notTaken (s := s.withSent o' d') hc
  · rw [branchIf_taken hc] at h
    cases h
    exact sendsOnly_of_silent fun o' d' => branchIf_taken (s := s.withSent o' d') hc

/-- R212: a read sends nothing, when what it does with its answer sends nothing. -/
theorem sendsOnly_readInput {α : Type} {k : InputRequest} {pick : HostAnswer → Option α} {done : α → State → State}
    {s t : State} (hdone : ∀ v (u : State) o' d', done v (u.withSent o' d') = (done v u).withSent o' d')
    (h : s.readInput k pick done = .next t) : SendsOnly (fun u => u.readInput k pick done) s t := by
  rcases readInput_cases s k pick done with ⟨-, e⟩ | ⟨a, rest, v, hin, hv, e⟩ <;> rw [e] at h <;> cases h
  exact sendsOnly_of_silent fun o' d' =>
    (readInput_of_answer (s := s.withSent o' d') hin hv).trans (congrArg _ (hdone v { s with input := rest, pending := none } o' d'))

theorem fillBuffer_withSent (bytes : List Byte) (s : State) (o : List Byte) (d : List Diag) :
    (s.withSent o d).fillBuffer bytes = (s.fillBuffer bytes).withSent o d := by
  rw [fillBuffer_eq, fillBuffer_eq]
  by_cases hroom : (s.readReg Reg.a0).toNat + bytes.length + 1 ≤ s.memSize.val
  · rw [if_pos hroom]
    exact if_pos hroom
  · rw [if_neg hroom]
    exact if_neg hroom

/-- R214: `print_string` sends what memory holds. -/
theorem sendsOnly_sysPrintString (s : State) : SendsOnly (fun u => .next (sysPrintString u)) s (sysPrintString s) := by
  rcases hloop : s.mem.stringAt (s.memSize.val - (s.readReg Reg.a0).toNat) (s.readReg Reg.a0).toNat with ⟨bytes, _ | _⟩
  · rw [sysPrintString_ends hloop]
    exact ⟨bytes, [], fun o' d' => by
      rw [List.append_nil]; exact congrArg _ (sysPrintString_ends (s := s.withSent o' d') hloop)⟩
  · rw [sysPrintString_ceiling hloop]
    exact ⟨bytes, [.readOutOfRange (s.stringFaultAddress (s.readReg Reg.a0))], fun o' d' => congrArg _ (sysPrintString_ceiling (s := s.withSent o' d') hloop)⟩

/-- `SendsOnly` of one meaning is that of another that agrees with it on the states that differ in what was sent. -/
theorem SendsOnly.congr {f g : State → Host.Outcome State Fault Refusal} {s t : State} (h : SendsOnly g s t)
    (hfg : ∀ o' d', f (s.withSent o' d') = g (s.withSent o' d')) : SendsOnly f s t := by
  obtain ⟨o, d, hod⟩ := h
  exact ⟨o, d, fun o' d' => (hfg o' d').trans (hod o' d')⟩

/-- R211, R212: a `syscall` sends what its selector's arm sends. -/
theorem sendsOnly_syscallResult {s t : State} (h : syscallResult s = .next t) : SendsOnly syscallResult s t := by
  rcases selector_cases s with hsel | hsel | hsel | hsel | hsel | hsel | hsel | hsel | hsel
  · rw [syscall_printInt hsel] at h
    cases h
    exact ⟨decimal (signed (s.readReg Reg.a0)), [], fun o' d' => by
      rw [List.append_nil]; exact syscall_printInt (s := s.withSent o' d') hsel⟩
  · rw [syscall_printString hsel] at h
    cases h
    exact (sendsOnly_sysPrintString s).congr fun o' d' => syscall_printString (s := s.withSent o' d') hsel
  · rw [syscall_readInt hsel] at h
    exact (sendsOnly_readInput (fun _ _ _ _ => rfl) h).congr fun o' d' => syscall_readInt (s := s.withSent o' d') hsel
  · rw [syscall_readString hsel, sysReadString] at h
    split at h
    · rename_i hL
      exact (sendsOnly_readInput (fun v u => fillBuffer_withSent v u) h).congr fun o' d' =>
        (syscall_readString (s := s.withSent o' d') hsel).trans (if_pos hL)
    · rename_i hL
      cases h
      exact sendsOnly_of_silent fun o' d' => (syscall_readString (s := s.withSent o' d') hsel).trans (if_neg hL)
  · rw [syscall_exit hsel] at h
    cases h
    exact sendsOnly_of_silent fun o' d' => syscall_exit (s := s.withSent o' d') hsel
  · rw [syscall_printChar hsel] at h
    cases h
    exact ⟨[(s.readReg Reg.a0).extractLsb' 0 8], [], fun o' d' => by
      rw [List.append_nil]; exact syscall_printChar (s := s.withSent o' d') hsel⟩
  · rw [syscall_readChar hsel] at h
    exact (sendsOnly_readInput (fun _ _ _ _ => rfl) h).congr fun o' d' => syscall_readChar (s := s.withSent o' d') hsel
  · rw [syscall_exitWithCode hsel] at h
    cases h
    exact sendsOnly_of_silent fun o' d' => syscall_exitWithCode (s := s.withSent o' d') hsel
  · rw [syscall_unsupported hsel] at h
    cases h
    exact sendsOnly_of_silent fun o' d' => syscall_unsupported (s := s.withSent o' d') hsel

theorem sendsOnly_exec {i : Instr} {s t : State} (h : exec i s = .next t) : SendsOnly (exec i) s t := by
  cases i with
  | add | sub | and | or | nor | slt | mul | sll | srl | addi | slti | andi | ori | j | jal | jr =>
    cases h
    exact sendsOnly_of_silent fun _ _ => rfl
  | beq | bne | blt | bge => exact sendsOnly_branchIf h
  | lw | lbu => exact sendsOnly_loadTo h
  | sw | sb => exact sendsOnly_storeFrom h
  | syscall => exact sendsOnly_syscallResult h

theorem sendsOnly_step {s t : State} (h : step s = .next t) : SendsOnly step s t := by
  obtain ⟨hrun, ⟨hout, rfl⟩ | ⟨hin, -, ⟨i, hd, hex⟩ | ⟨e, hd, rfl⟩⟩⟩ := step_cases h
  · exact sendsOnly_of_silent fun o' d' => step_of_fetch_outOfRange (s := s.withSent o' d') hrun hout
  · exact (sendsOnly_exec hex).congr fun o' d' => step_of_decode (s := s.withSent o' d') hrun hin hd
  · exact ⟨[], [.unimplementedOpcode s.pc], fun o' d' => by
      rw [List.append_nil]; exact step_of_reject (s := s.withSent o' d') hrun hin hd⟩

/-- Settles O48: the step sends the same whatever was sent before (`sendsOnly_step`), and so also after what `s` has
sent. -/
theorem sentStreamsAreNeverReadBack : Obligations.SentStreamsAreNeverReadBack := by
  intro s t h
  obtain ⟨o, d, hod⟩ := sendsOnly_step h
  have ht : t = t.withSent (s.output ++ o) (s.diags ++ d) :=
    Host.Outcome.next.inj (h.symm.trans (hod s.output s.diags))
  exact ⟨o, d, congrArg State.output ht, congrArg State.diags ht, hod⟩

end Sys2Proof.Machine
end

section
/-! PROOFS. The arithmetic and the shifts of the ALU, and the pseudo-instructions made of them (spec/41_alu.md R140, R141,
R146 to R150, R153, spec/30_encoding.md R98 to R100). -/

namespace Sys2Proof.Machine

/-- Settles O5: each `exec` is a `writeBack` of the narrowed exact result. -/
theorem signedArithmeticWraps : Obligations.SignedArithmeticWraps := by
  intro rd rs rt imm s
  refine ⟨?add, ?sub, ?mul, ?addi⟩
  all_goals exact computesInto_of_writeBack rfl

/-- Settles O8: `exec` of `slti` is a `writeBack` of `setLess`, and the opcode 0x0A selects its arm. -/
theorem setLessThanImmediateResult : Obligations.SetLessThanImmediateResult := by
  refine ⟨fun rt rs imm s => ?_, fun w ho => ?_⟩
  · rw [← setLess_signed]
    exact computesInto_of_writeBack rfl
  · rw [decodeWord, ho]
    rfl

/-- Settles O9: `exec` of `sll` is a `writeBack` of `shiftLeft`, and the function 0x00 selects its arm. -/
theorem shiftLeftResult : Obligations.ShiftLeftResult := by
  refine ⟨fun rd rt shamt s => ?_, selectsFunct_of_decodeSpecial fun w hf => ?_⟩
  · exact computesInto_of_writeBack rfl
  · rw [decodeSpecial, hf]
    rfl

/-- Settles O10: `exec` of `srl` is a `writeBack` of the logical `shiftRight`, and the function 0x02 selects its arm. -/
theorem shiftRightResult : Obligations.ShiftRightResult := by
  refine ⟨fun rd rt shamt s => ?_, selectsFunct_of_decodeSpecial fun w hf => ?_⟩
  · exact computesInto_of_writeBack rfl
  · rw [decodeSpecial, hf]
    rfl

/-! ## Arithmetic modulo 2^32 (R153) -/

/-- The low 32 bits of a difference are the difference of the low 32 bits. -/
theorem ofInt_sub (m n : Int) : BitVec.ofInt 32 (m - n) = BitVec.ofInt 32 m - BitVec.ofInt 32 n := by
  rw [Int.sub_eq_add_neg, BitVec.ofInt_add, BitVec.ofInt_neg, ← BitVec.sub_eq_add_neg]

/-- R147: the product with a power of two is the shift of the bits. -/
theorem ofNat_mul_two_pow (v : Word) (n : Nat) : BitVec.ofNat 32 (v.toNat * 2 ^ n) = v <<< n := by
  apply BitVec.eq_of_toNat_eq
  rw [BitVec.toNat_ofNat, BitVec.toNat_shiftLeft, Nat.shiftLeft_eq]

/-- R148: the quotient by a power of two is the logical shift of the bits. -/
theorem ofNat_div_two_pow (v : Word) (n : Nat) : BitVec.ofNat 32 (v.toNat / 2 ^ n) = v >>> n := by
  apply BitVec.eq_of_toNat_eq
  have hle : v.toNat / 2 ^ n ≤ v.toNat := Nat.div_le_self ..
  rw [BitVec.toNat_ofNat, BitVec.toNat_ushiftRight, Nat.shiftRight_eq_div_pow,
    Nat.mod_eq_of_lt (Nat.lt_of_le_of_lt hle v.isLt)]

/-- Settles O11: the exact results of O5, O9 and O10 written again: the low 32 bits of a sum, difference or product are those
of the low 32 bits of its operands. -/
theorem arithmeticIgnoresSignedness : Obligations.ArithmeticIgnoresSignedness := by
  intro rd rs rt imm shamt s
  obtain ⟨hadd, hsub, hmul, haddi⟩ := signedArithmeticWraps rd rs rt imm s
  have hsll := shiftLeftResult.1 rd rt shamt s
  have hsrl := shiftRightResult.1 rd rt shamt s
  refine ⟨?add, ?sub, ?mul, ?addi, ?sll, ?srl⟩
  case add =>
    rw [BitVec.ofNat_add, BitVec.ofNat_toNat, BitVec.ofNat_toNat, BitVec.setWidth_eq, BitVec.setWidth_eq]
    rwa [BitVec.ofInt_add, BitVec.ofInt_toInt, BitVec.ofInt_toInt] at hadd
  case sub => rwa [ofInt_sub, BitVec.ofInt_toInt, BitVec.ofInt_toInt] at hsub
  case mul =>
    rw [BitVec.ofNat_mul, BitVec.ofNat_toNat, BitVec.ofNat_toNat, BitVec.setWidth_eq, BitVec.setWidth_eq]
    rwa [BitVec.ofInt_mul, BitVec.ofInt_toInt, BitVec.ofInt_toInt] at hmul
  case addi => rwa [BitVec.ofInt_add, BitVec.ofInt_toInt, BitVec.ofInt_toInt] at haddi
  case sll => rwa [ofNat_mul_two_pow] at hsll
  case srl => rwa [ofNat_div_two_pow] at hsrl

/-! ## Pseudo-instructions (R98 to R100) -/

theorem computesInto_addi_zero (rt : Reg) (imm : Imm) (s : State) :
    ComputesInto (.addi rt Reg.zero imm) s rt (imm.signExtend 32) := by
  obtain ⟨-, -, -, haddi, -⟩ := arithmeticIgnoresSignedness rt Reg.zero rt imm 0 s
  rwa [readReg_zero, BitVec.zero_add] at haddi

/-- R100: the low half of a small address, sign-extended, is the address. -/
theorem signExtend_low_of_lt {a : Word} (h : a.toNat < 32768) : (a.extractLsb' 0 16).signExtend 32 = a := by
  apply BitVec.eq_of_toNat_eq
  rw [BitVec.toNat_signExtend, BitVec.msb_eq_decide, BitVec.toNat_setWidth, BitVec.extractLsb'_toNat,
    Nat.shiftRight_zero, if_neg (by simp; omega)]
  omega

/-- R100: from 32768 on the sign extension takes 65536 off the address. -/
theorem signExtend_low_of_ge {a : Word} (h : 32768 ≤ a.toNat) (h' : a.toNat < 65536) :
    (a.extractLsb' 0 16).signExtend 32 = a - 0x00010000#32 := by
  apply BitVec.eq_of_toNat_eq
  rw [BitVec.toNat_signExtend, BitVec.msb_eq_decide, BitVec.toNat_setWidth, BitVec.extractLsb'_toNat,
    Nat.shiftRight_zero, if_pos (by simp; omega), BitVec.toNat_sub, BitVec.toNat_ofNat]
  omega

/-- Settles O55: `move` adds zero, and `li` and `la` add their sign-extended literal to zero. -/
theorem pseudoInstructionsLoad : Obligations.PseudoInstructionsLoad := by
  intro rd rs imm a s
  refine ⟨?_, computesInto_addi_zero rd imm s, fun h => ?_, fun h h' => ?_⟩
  · obtain ⟨hadd, -⟩ := signedArithmeticWraps rd rs Reg.zero imm s
    rwa [readReg_zero, BitVec.toInt_zero, Int.add_zero, BitVec.ofInt_toInt] at hadd
  · have hla := computesInto_addi_zero rd (a.extractLsb' 0 16) s
    rwa [signExtend_low_of_lt h] at hla
  · have hla := computesInto_addi_zero rd (a.extractLsb' 0 16) s
    rwa [signExtend_low_of_ge h h'] at hla

end Sys2Proof.Machine
end

section
/-! PROOFS. The branches and jumps (spec/42_branch_jump.md R170 to R178). -/

namespace Sys2Proof.Machine

/-! ## Branches -/

/-- R170: a taken branch goes to its target and changes nothing but the pc. -/
theorem transfersTo_of_taken {i : Instr} {c : Cond} {rs rt : Reg} {imm : Imm} {s : State}
    (h : exec i s = branchIf c rs rt imm s) (hc : c.holds (signed (s.readReg rs)) (signed (s.readReg rt)) = true) :
    TransfersTo i s (branchTarget s.pc imm) :=
  transfersTo_of_jumpTo (h.trans (branchIf_taken hc))

/-- R170: a branch that is not taken goes to pc + 4 and changes nothing but the pc. -/
theorem transfersTo_of_notTaken {i : Instr} {c : Cond} {rs rt : Reg} {imm : Imm} {s : State}
    (h : exec i s = branchIf c rs rt imm s) (hc : c.holds (signed (s.readReg rs)) (signed (s.readReg rt)) = false) :
    TransfersTo i s (s.pc + 0x00000004#32) :=
  transfersTo_of_advance (h.trans (branchIf_notTaken hc))

/-- R170: a branch on the condition `p` goes to its target or to pc + 4. -/
theorem transfersTo_of_branchIf {i : Instr} {c : Cond} {rs rt : Reg} {imm : Imm} {s : State} {p : Prop} [Decidable p]
    (h : exec i s = branchIf c rs rt imm s) (hp : c.holds (signed (s.readReg rs)) (signed (s.readReg rt)) = decide p) :
    TransfersTo i s (if p then branchTarget s.pc imm else s.pc + 0x00000004#32) := by
  split
  · exact transfersTo_of_taken h (hp.trans (decide_eq_true ‹_›))
  · exact transfersTo_of_notTaken h (hp.trans (decide_eq_false ‹_›))

/-- Settles O12: `beq` and `bne` are `branchIf` on their condition, and their opcodes select their arms. -/
theorem equalityBranches : Obligations.EqualityBranches := by
  refine ⟨fun rs rt imm s => ⟨transfersTo_of_branchIf (c := .eq) rfl rfl, transfersTo_of_branchIf (c := .ne) rfl rfl⟩, ?_, ?_⟩
  all_goals
    intro w ho
    rw [decodeWord, ho]
    rfl

/-- Settles O13: `blt` and `bge` are `branchIf` on their condition, and their opcodes select their arms. -/
theorem orderBranches : Obligations.OrderBranches := by
  refine ⟨fun rs rt imm s => ⟨transfersTo_of_branchIf (c := .lt) rfl rfl, transfersTo_of_branchIf (c := .ge) rfl rfl⟩, ?_, ?_⟩
  all_goals
    intro w ho
    rw [decodeWord, ho]
    rfl

/-- R96, R178: a word distance within the range of 16 bits survives the field. -/
theorem sext32_field_shift {d : Word} (hmod : d.toInt % 4 = 0) (hlo : -131072 ≤ d.toInt) (hhi : d.toInt ≤ 131068) :
    sext32 ((d >>> 2).extractLsb' 0 16) <<< 2 = d := by
  apply BitVec.eq_of_toNat_eq
  have := d.isLt
  rw [BitVec.toInt_eq_toNat_cond] at hmod hlo hhi
  rw [BitVec.toNat_shiftLeft, sext32, BitVec.toNat_signExtend, BitVec.msb_eq_decide, BitVec.toNat_setWidth,
    BitVec.extractLsb'_toNat, BitVec.toNat_ushiftRight, Nat.shiftRight_zero, Nat.shiftRight_eq_div_pow, Nat.shiftLeft_eq]
  simp only [decide_eq_true_eq]
  split <;> split at hmod <;> omega

/-- R178: the field the assembler writes for a label in range brings the branch to the label. -/
theorem branchTarget_branchField {pc a : Word} (hmod : (a - (pc + 0x00000004#32)).toInt % 4 = 0)
    (hlo : -131072 ≤ (a - (pc + 0x00000004#32)).toInt) (hhi : (a - (pc + 0x00000004#32)).toInt ≤ 131068) :
    branchTarget pc (branchField pc a) = a := by
  rw [branchTarget, branchField, sext32_field_shift hmod hlo hhi, branchRelBase]
  exact add_sub_cancel _ a

/-- Settles O14: each branch is taken on its condition, and its target is the label (`branchTarget_branchField`). -/
theorem branchesReachTheirLabel : Obligations.BranchesReachTheirLabel := by
  intro rs rt a s hmod hlo hhi
  have reach : ∀ {i : Instr} {c : Cond}, exec i s = branchIf c rs rt (branchField s.pc a) s →
      c.holds (signed (s.readReg rs)) (signed (s.readReg rt)) = true → TransfersTo i s a := fun hexec hc => by
    have htaken := transfersTo_of_taken hexec hc
    rwa [branchTarget_branchField hmod hlo hhi] at htaken
  refine ⟨fun h => ?beq, fun h => ?bne, fun h => ?blt, fun h => ?bge⟩
  case beq => exact reach (c := .eq) rfl (decide_eq_true (congrArg signed h))
  case bne => exact reach (c := .ne) rfl (decide_eq_true fun e => h (BitVec.eq_of_toInt_eq e))
  case blt => exact reach (c := .lt) rfl (decide_eq_true h)
  case bge => exact reach (c := .ge) rfl (decide_eq_true h)

/-! ## Jumps -/

/-- R97: the field of an address below 2^26 is the address. -/
theorem setWidth_jumpField {a : Word} (h : a.toNat < 67108864) : (jumpField a).setWidth 32 = a := by
  apply BitVec.eq_of_toNat_eq
  rw [jumpField, BitVec.toNat_setWidth, BitVec.extractLsb'_toNat, Nat.shiftRight_zero]
  omega

/-- R176: `jal` links and jumps. -/
theorem exec_jal (target : Target) (s : State) :
    exec (.jal target) s = .next ((s.writeReg Reg.ra (linkValue s.pc)).jumpTo (jumpTarget target)) := rfl

/-- Settles O16: `j` is a `jumpTo` the field, `jal` the same after the link is written. -/
theorem jumpsReachTheirTarget : Obligations.JumpsReachTheirTarget := by
  intro target s
  refine ⟨transfersTo_of_jumpTo rfl, ⟨_, exec_jal target s, rfl, ?_, fun _ => rfl, ⟨rfl, rfl, rfl, rfl⟩, rfl, rfl, rfl⟩,
    fun a h => setWidth_jumpField h⟩
  exact readReg_writeReg s Reg.ra (linkValue s.pc)

/-- Settles O17: the `jr` goes to the link that the `jal` wrote, and neither touches anything but x[31] and the pc. -/
theorem returnSkipsTheWordAfterTheCall : Obligations.ReturnSkipsTheWordAfterTheCall := by
  intro target s
  refine ⟨_, _, exec_jal target s, rfl, ?_, fun r hr => ?_, fun _ => rfl, ⟨rfl, rfl, rfl, rfl⟩, rfl, rfl, rfl⟩
  · rw [jumpTo_pc, jumpTo_readReg, readReg_writeReg]
    rfl
  · rw [jumpTo_readReg, jumpTo_readReg, readReg_writeReg, if_neg fun h => hr h.1]

end Sys2Proof.Machine
end

section
/-! PROOFS. The loads and stores: `lw`, the stores of either width, and what later accesses see of them
(spec/43_load_store.md R190 to R195, spec/20_memory.md R54, R66). -/

namespace Sys2Proof.Machine

/-- Settles O18: `exec` of `lw` is the `loadTo` of a word, and the opcode 0x23 selects its arm. -/
theorem loadWordResult : Obligations.LoadWordResult := by
  refine ⟨fun rt rs imm s => ?_, fun w ho => ?_⟩
  · have hexec : exec (.lw rt rs imm) s = loadTo .word rt rs imm s := rfl
    rw [← effectiveAddress_eq, ← readWord_eq_append]
    constructor
    · intro hin
      exact loadsInto_of_loadTo_inRange hexec ((inRange_iff s _ 4).2 hin)
    · intro hout
      exact loadsInto_of_loadTo_outOfRange hexec ((inRange_eq_false_iff s _ 4).2 hout)
  · rw [decodeWord, ho]
    rfl

/-! ## Stores -/

/-- R56: in range, a store of any width writes the bytes of its access and changes nothing else but the pc. -/
theorem storesAt_of_storeFrom {i : Instr} {n : Width} {rt rs : Reg} {imm : Imm} {s : State} (hwf : s.mem.wf = true)
    (h : exec i s = storeFrom n rt rs imm s) (hin : s.inRange (s.effectiveAddress rs imm) n.bytes = true) :
    StoresAt i s (s.effectiveAddress rs imm).toNat (n.storeBytes (s.readReg rt)) :=
  ⟨_, h.trans (storeFrom_inRange hin), storesBytes_of_writeBytes hwf rfl, fun _ => rfl, rfl, ⟨rfl, rfl, rfl, rfl⟩, rfl,
    rfl, rfl⟩

/-- Settles O20: `sw` and `sb` are the `storeFrom` of a word and of a byte. -/
theorem storesInRange : Obligations.StoresInRange := by
  intro rt rs imm s hwf
  refine ⟨fun hin => ?_, fun hin => ?_, effectiveAddress_eq s rs imm⟩
  · exact storesAt_of_storeFrom (n := .word) hwf rfl ((inRange_iff s _ 4).2 hin)
  · exact storesAt_of_storeFrom (n := .byte) hwf rfl ((inRange_iff s _ 1).2 hin)

/-- Settles O21: out of range, `storeFrom` of either width is an `abort` and nothing else. -/
theorem storesOutOfRangeAbort : Obligations.StoresOutOfRangeAbort := by
  intro rt rs imm s
  constructor
  · intro hout
    exact abortsWith_of_abort (storeFrom_outOfRange (n := .word) ((inRange_eq_false_iff s _ 4).2 hout))
  · intro hout
    exact abortsWith_of_abort (storeFrom_outOfRange (n := .byte) ((inRange_eq_false_iff s _ 1).2 (Nat.lt_succ_of_le hout)))

/-! ## Accesses after a store -/

/-- The state after a store in range: its bytes written at its address, the pc advanced. -/
def State.stored (s : State) (n : Width) (a v : Word) : State :=
  State.advance { s with mem := s.mem.writeBytes a.toNat (n.storeBytes v) }

theorem exec_sw_inRange {rt rs : Reg} {imm : Imm} {s : State}
    (h : (s.effectiveAddress rs imm).toNat + 4 ≤ s.memSize.val) :
    exec (.sw rt rs imm) s = .next (s.stored .word (s.effectiveAddress rs imm) (s.readReg rt)) :=
  storeFrom_inRange (n := .word) ((inRange_iff s _ 4).2 h)

theorem exec_sb_inRange {rt rs : Reg} {imm : Imm} {s : State} (h : (s.effectiveAddress rs imm).toNat < s.memSize.val) :
    exec (.sb rt rs imm) s = .next (s.stored .byte (s.effectiveAddress rs imm) (s.readReg rt)) :=
  storeFrom_inRange (n := .byte) ((inRange_iff s _ 1).2 h)

/-- R52: the word stored is the word there after. -/
theorem readWord_stored_word {s : State} (hwf : s.mem.wf = true) (a v : Word) :
    (s.stored .word a v).mem.readWord a.toNat = v :=
  readWord_writeBytes s.mem a.toNat v hwf

/-- R52: so are its bytes, the least significant first. -/
theorem read_stored_word {s : State} (hwf : s.mem.wf = true) (a v : Word) {k : Nat} (hk : k < 4) :
    (s.stored .word a v).mem.read (a.toNat + k) = v.extractLsb' (8 * k) 8 := by
  have hbyte : (bytesOfWord v)[k] = v.extractLsb' (8 * k) 8 := by
    interval_cases k <;> rfl
  exact (read_writeBytes s.mem a.toNat (bytesOfWord v) hwf k hk).trans hbyte

/-- R52: after a byte store that byte is the low one stored, and every other as before. -/
theorem read_stored_byte {s : State} (hwf : s.mem.wf = true) (a v : Word) (c : Nat) :
    (s.stored .byte a v).mem.read c = if c = a.toNat then v.extractLsb' 0 8 else s.mem.read c :=
  read_write s.mem a.toNat c (v.extractLsb' 0 8) hwf

/-- An address within an access in range does not wrap. -/
theorem toNat_add_ofNat {s : State} {a : Word} {k : Nat} (hk : k < 4) (h : a.toNat + 4 ≤ s.memSize.val) :
    (a + BitVec.ofNat 32 k).toNat = a.toNat + k := by
  have hmax : s.memSize.val ≤ 4294967295 := s.memSize.atMost
  rw [BitVec.toNat_add, BitVec.toNat_ofNat]
  omega

/-- R53: byte k of the word at an address is the byte k above it. -/
theorem extractLsb'_readWord (m : Memory) (a : Nat) {k : Nat} (hk : k < 4) :
    (m.readWord a).extractLsb' (8 * k) 8 = m.read (a + k) := by
  have h0 := (m.read a).isLt; have h1 := (m.read (a + 1)).isLt
  have h2 := (m.read (a + 2)).isLt; have h3 := (m.read (a + 3)).isLt
  have hword : (m.readWord a).toNat = (m.read (a + 3)).toNat * 16777216 + (m.read (a + 2)).toNat * 65536 +
      (m.read (a + 1)).toNat * 256 + (m.read a).toNat := by
    simp only [readWord_eq_append, BitVec.toNat_append]
    rw [← Nat.shiftLeft_add_eq_or_of_lt (by omega), ← Nat.shiftLeft_add_eq_or_of_lt (by omega),
      ← Nat.shiftLeft_add_eq_or_of_lt (by omega)]
    simp only [Nat.shiftLeft_eq]
    omega
  apply BitVec.eq_of_toNat_eq
  rw [BitVec.extractLsb'_toNat, Nat.shiftRight_eq_div_pow, hword]
  interval_cases k
  · rw [Nat.add_zero a]
    omega
  all_goals omega

/-- R191: `lw` at an address in range loads the word there. -/
theorem loadsInto_lw {s : State} {d b : Reg} {disp : Imm} {a : Word} (ha : s.effectiveAddress b disp = a)
    (hin : a.toNat + 4 ≤ s.memSize.val) : LoadsInto (.lw d b disp) s d (s.mem.readWord a.toNat) [] := by
  subst ha
  exact loadsInto_of_loadTo_inRange (n := .word) rfl ((inRange_iff s _ 4).2 hin)

/-- R192: `lbu` at an address in range loads the byte there. -/
theorem loadsInto_lbu {s : State} {d b : Reg} {disp : Imm} {a : Word} (ha : s.effectiveAddress b disp = a)
    (hin : a.toNat < s.memSize.val) : LoadsInto (.lbu d b disp) s d ((s.mem.read a.toNat).setWidth 32) [] := by
  subst ha
  exact loadsInto_of_loadTo_inRange (n := .byte) rfl ((inRange_iff s _ 1).2 hin)

/-- Settles O22: the loads are in range where the store was, and read what `stored` left. -/
theorem loadsSeeAWordStore : Obligations.LoadsSeeAWordStore := by
  intro rt rs imm s hwf hin
  refine ⟨_, exec_sw_inRange hin, fun d b disp ha => ?_, fun k d b disp hk ha => ?_⟩
  · have hload := loadsInto_lw (d := d) ha hin
    rwa [readWord_stored_word hwf] at hload
  · have haddr := toNat_add_ofNat hk hin
    have hload := loadsInto_lbu (d := d) ha (haddr ▸ Nat.lt_of_lt_of_le (Nat.add_lt_add_left hk _) hin)
    rwa [haddr, read_stored_word hwf _ _ hk] at hload

/-- Settles O23: the loaded word's bytes are those of memory (`extractLsb'_readWord`), where the store changed one. -/
theorem wordLoadSeesAByteStore : Obligations.WordLoadSeesAByteStore := by
  intro k a rt rs imm s hwf hk hin hea
  have haddr : (s.effectiveAddress rs imm).toNat = a.toNat + k := by rw [hea, toNat_add_ofNat hk hin]
  refine ⟨_, exec_sb_inRange (by omega), fun d b disp ha => ⟨_, loadsInto_lw ha hin, fun n hn => ?_⟩⟩
  rw [extractLsb'_readWord _ _ hn, extractLsb'_readWord _ _ hn, read_stored_byte hwf, haddr]
  exact if_congr Nat.add_left_cancel_iff rfl rfl

/-- Settles O24: the store's word stands at the pc that the store leaves. -/
theorem nextFetchSeesAStore : Obligations.NextFetchSeesAStore := by
  intro rt rs imm s hwf hrun hea hin
  have hfetch : (s.stored .word (s.effectiveAddress rs imm) (s.readReg rt)).fetch = .ok (s.readReg rt) := by
    have hpc : (s.stored .word (s.effectiveAddress rs imm) (s.readReg rt)).pc = s.effectiveAddress rs imm := hea.symm
    rw [fetch_inRange ((inRange_iff _ _ 4).2 (hpc.symm ▸ hin)), hpc, readWord_stored_word hwf]
  refine ⟨_, exec_sw_inRange hin, hfetch, ?_⟩
  have hrun' : (s.stored .word (s.effectiveAddress rs imm) (s.readReg rt)).run = .running := hrun
  simp only [step, hrun', hfetch]

end Sys2Proof.Machine
end

section
/-! PROOFS. Numerals (spec/44_syscall.md R213). -/

namespace Sys2Proof.Machine

/-- The bytes write the number `n` in base ten: digits, at least one, and a leading 0 only as the single digit. -/
def IsNumeral (ds : List Byte) (n : Nat) : Prop :=
  (∀ b ∈ ds, isDigit b) ∧ digitsValue ds = n ∧ ds ≠ [] ∧ (ds.head? = some 0x30#8 → ds = [0x30#8])

theorem toNat_digitByte {n : Nat} (h : n < 10) : (digitByte n).toNat = 48 + n := by
  rw [digitByte, BitVec.toNat_ofNat]
  omega

theorem isDigit_digitByte {n : Nat} (h : n < 10) : isDigit (digitByte n) := by
  rw [isDigit, toNat_digitByte h]
  omega

theorem digitsValue_append_digit (ds : List Byte) {n : Nat} (h : n < 10) :
    digitsValue (ds ++ [digitByte n]) = 10 * digitsValue ds + n := by
  rw [digitsValue, List.foldl_append, List.foldl_cons, List.foldl_nil, toNat_digitByte h, Nat.add_sub_cancel_left,
    digitsValue]

theorem isNumeral_digit {n : Nat} (h : n < 10) : IsNumeral [digitByte n] n := by
  refine ⟨by simpa using isDigit_digitByte h, ?_, by simp, fun hhead => congrArg (· :: []) (by simpa using hhead)⟩
  simpa [digitsValue] using digitsValue_append_digit [] h

/-- A digit after a numeral of a number above 0 makes the next longer numeral: its first digit stays first. -/
theorem IsNumeral.append {ds : List Byte} {m n : Nat} (h : IsNumeral ds m) (hm : 0 < m) (hn : n < 10) :
    IsNumeral (ds ++ [digitByte n]) (10 * m + n) := by
  obtain ⟨hdigits, hvalue, hne, hlead⟩ := h
  refine ⟨?_, by rw [digitsValue_append_digit ds hn, hvalue], by simp, fun hhead => ?_⟩
  · intro b hb
    rcases List.mem_append.1 hb with hb | hb
    · exact hdigits b hb
    · rw [List.mem_singleton.1 hb]
      exact isDigit_digitByte hn
  · have hzero : ds = [0x30#8] := hlead (by rwa [List.head?_append_of_ne_nil _ hne] at hhead)
    rw [hzero] at hvalue
    have : m = 0 := hvalue.symm
    omega

/-- R213: with enough fuel the digits write the number. -/
theorem isNumeral_decimalDigits {fuel n : Nat} (h : n < fuel) : IsNumeral (decimalDigits fuel n) n := by
  induction fuel generalizing n with
  | zero => omega
  | succ fuel ih =>
    rw [decimalDigits]
    split
    · exact isNumeral_digit ‹_›
    · have hnext := (ih (n := n / 10) (by omega)).append (n := n % 10) (by omega) (by omega)
      rwa [Nat.div_add_mod] at hnext

/-- Settles O26: the digits of |n| are a numeral (`isNumeral_decimalDigits`), after the sign. -/
theorem decimalWritesTheInteger : Obligations.DecimalWritesTheInteger := by
  intro n
  refine ⟨decimalDigits (n.natAbs + 1) n.natAbs, ?_, isNumeral_decimalDigits (Nat.lt_succ_self _)⟩
  rw [decimal]
  split
  · rfl
  · rfl

end Sys2Proof.Machine
end

section
/-! PROOFS. The decoder and the opcode table (spec/30_encoding.md R84, R89, R90). -/

namespace Sys2Proof

/-- Settles O54, each word by its fields. -/
theorem exampleWordsDecode : Obligations.ExampleWordsDecode := by
  unfold Obligations.ExampleWordsDecode
  decide

/-! ## Rows -/

/-- One well-formed instruction of each row, in the order of the table. -/
def rowRepresentatives : List Instr :=
  [.add 0 0 0, .sub 0 0 0, .and 0 0 0, .or 0 0 0, .nor 0 0 0, .slt 0 0 0, .mul 0 0 0, .sll 0 0 0, .srl 0 0 0, .jr 0,
    .syscall, .addi 0 0 0#16, .slti 0 0 0#16, .andi 0 0 0#16, .ori 0 0 0#16, .beq 0 0 0#16, .bne 0 0 0#16,
    .blt 0 0 0#16, .bge 0 0 0#16, .lw 0 0 0#16, .lbu 0 0 0#16, .sw 0 0 0#16, .sb 0 0 0#16, .j 0#26, .jal 0#26]

theorem opcodeTable_eq_map_row : opcodeTable = rowRepresentatives.map Instr.row := rfl

/-- Every row of the table is that of a well-formed instruction. -/
theorem exists_instr_of_row {r : Row} (h : r ∈ opcodeTable) : ∃ i : Instr, i.wellFormed = true ∧ i.row = r := by
  have hwf : ∀ i ∈ rowRepresentatives, i.wellFormed = true := by decide
  rw [opcodeTable_eq_map_row] at h
  obtain ⟨i, hi, hrow⟩ := List.mem_map.1 h
  exact ⟨i, hwf i hi, hrow⟩

theorem row_mem_opcodeTable (i : Instr) : i.row ∈ opcodeTable := by
  cases i <;> simp only [Instr.row] <;> decide

/-- Any two rows of the table differ in a bit that both fix. -/
theorem opcodeTable_pairwise_disjoint :
    opcodeTable.Pairwise (fun r q => r.pattern &&& q.mask ≠ q.pattern &&& r.mask) := by
  decide

/-- A word that two rows select agrees with both patterns where both masks look. -/
theorem overlap_of_selects {r q : Row} {w : Word} (hr : r.selects w) (hq : q.selects w) :
    r.pattern &&& q.mask = q.pattern &&& r.mask := by
  rw [← hr, ← hq, BitVec.and_assoc, BitVec.and_assoc, BitVec.and_comm r.mask]

/-- So no word is selected twice. -/
theorem row_unique {r q : Row} {w : Word} (hr : r ∈ opcodeTable) (hq : q ∈ opcodeTable) (hrw : r.selects w)
    (hqw : q.selects w) : r = q := by
  have symm : Std.Symm fun r q : Row => r.pattern &&& q.mask ≠ q.pattern &&& r.mask := ⟨fun _ _ => Ne.symm⟩
  by_contra hne
  exact opcodeTable_pairwise_disjoint.forall hr hq hne (overlap_of_selects hrw hqw)

/-! ## The row of a decoded word -/

/-- Decoding reads every bit that selects the row. -/
theorem usedBits_and_mask (i : Instr) : i.usedBits &&& i.row.mask = i.row.mask := by
  cases i <;> simp only [Instr.usedBits, Instr.row] <;> decide

/-- The encoded word matches its row, by constructor. -/
theorem row_selects_encode (i : Instr) : i.row.selects (encode i) := by
  cases i with
  | add => exact Laws.EncodedRow.add ..
  | sub => exact Laws.EncodedRow.sub ..
  | and => exact Laws.EncodedRow.and ..
  | or => exact Laws.EncodedRow.or ..
  | nor => exact Laws.EncodedRow.nor ..
  | slt => exact Laws.EncodedRow.slt ..
  | mul => exact Laws.EncodedRow.mul ..
  | sll => exact Laws.EncodedRow.sll ..
  | srl => exact Laws.EncodedRow.srl ..
  | jr => exact Laws.EncodedRow.jr ..
  | syscall => exact Laws.EncodedRow.syscall
  | addi => exact Laws.EncodedRow.addi ..
  | slti => exact Laws.EncodedRow.slti ..
  | andi => exact Laws.EncodedRow.andi ..
  | ori => exact Laws.EncodedRow.ori ..
  | beq => exact Laws.EncodedRow.beq ..
  | bne => exact Laws.EncodedRow.bne ..
  | blt => exact Laws.EncodedRow.blt ..
  | bge => exact Laws.EncodedRow.bge ..
  | lw => exact Laws.EncodedRow.lw ..
  | lbu => exact Laws.EncodedRow.lbu ..
  | sw => exact Laws.EncodedRow.sw ..
  | sb => exact Laws.EncodedRow.sb ..
  | j => exact Laws.EncodedRow.j ..
  | jal => exact Laws.EncodedRow.jal ..

/-- R89: the ignored fields do not matter to the row, so any word with the used bits of an encoded one matches it. -/
theorem row_selects_of_usedBits {w : Word} {i : Instr} (h : encode i = w &&& i.usedBits) : i.row.selects w := by
  have henc : i.row.selects (w &&& i.usedBits) := h ▸ row_selects_encode i
  rwa [Row.selects, BitVec.and_assoc, usedBits_and_mask] at henc

theorem row_selects_of_decode {w : Word} {i : Instr} (h : decodeWord w = .ok i) : i.row.selects w :=
  row_selects_of_usedBits (encode_decodeWord h).2

/-! ## Decoding a word that a row selects -/

/-- A row fixes the opcode, and the function too where the opcode is 0. -/
theorem mask_cases (i : Instr) :
    i.row.mask = specialMask ∨ (i.row.mask = opMask ∧ opField (encode i) ≠ opSpecial) := by
  cases i with
  | add | sub | and | or | nor | slt | mul | sll | srl | jr | syscall => exact .inl rfl
  | addi | slti | andi | ori | beq | bne | blt | bge | lw | lbu | sw | sb =>
    exact .inr ⟨rfl, by rw [encode, opField_iType]; decide⟩
  | j | jal => exact .inr ⟨rfl, by rw [encode, opField_jType]; decide⟩

/-- A selected word has the opcode of the row's instruction, and with opcode 0 its function. -/
theorem op_funct_of_selects {w : Word} {i : Instr} (h : i.row.selects w) :
    opField w = opField (encode i) ∧ (opField (encode i) = opSpecial → functField w = functField (encode i)) := by
  have hmask : w &&& i.row.mask = encode i &&& i.row.mask := Eq.trans h (row_selects_encode i).symm
  rcases mask_cases i with e | ⟨e, hne⟩
  · rw [e, and_specialMask, and_specialMask] at hmask
    obtain ⟨hop, hfunct⟩ := jType_inj hmask
    exact ⟨hop, fun _ => by simpa using congrArg (BitVec.setWidth 6) hfunct⟩
  · rw [e, and_opMask, and_opMask] at hmask
    exact ⟨(jType_inj hmask).1, fun h => absurd h hne⟩

/-- Opcode and function say which instruction a word is, and so which bits of it are used. -/
theorem decodeWord_of_op_funct {w w' : Word} {i : Instr} (hop : opField w' = opField w)
    (hfunct : opField w = opSpecial → functField w' = functField w) (h : decodeWord w = .ok i) :
    ∃ j, decodeWord w' = .ok j ∧ j.usedBits = i.usedBits := by
  rcases decodeWord_cases w with ⟨ho, hd⟩ | ⟨ho, hd⟩ | ⟨ho, hd⟩ | ⟨ho, hd⟩ | ⟨ho, hd⟩ | ⟨ho, hd⟩ | ⟨ho, hd⟩ | ⟨ho, hd⟩ |
    ⟨ho, hd⟩ | ⟨ho, hd⟩ | ⟨ho, hd⟩ | ⟨ho, hd⟩ | ⟨ho, hd⟩ | ⟨ho, hd⟩ | ⟨ho, hd⟩ | ⟨-, hd⟩
  case inl =>
    have hspecial : decodeWord w' = decodeSpecial w' := if_pos (hop.trans ho)
    have hfunct' : functField w' = functField w := hfunct ho
    rcases decodeSpecial_cases w with ⟨hf, hs⟩ | ⟨hf, hs⟩ | ⟨hf, hs⟩ | ⟨hf, hs⟩ | ⟨hf, hs⟩ | ⟨hf, hs⟩ | ⟨hf, hs⟩ |
      ⟨hf, hs⟩ | ⟨hf, hs⟩ | ⟨hf, hs⟩ | ⟨hf, hs⟩ | ⟨-, hs⟩
    all_goals cases (hd.trans hs).symm.trans h
    all_goals
      apply Exists.intro
      apply And.intro
      · rw [hspecial, decodeSpecial, hfunct', hf]
        rfl
      · rfl
  all_goals cases hd.symm.trans h
  all_goals
    apply Exists.intro
    apply And.intro
    · rw [decodeWord, hop, ho]
      rfl
    · rfl

/-- R84: a word that an instruction's row selects decodes, to an instruction that uses the same bits. -/
theorem decodeWord_of_selects {w : Word} {i : Instr} (hwf : i.wellFormed = true) (h : i.row.selects w) :
    ∃ j, decodeWord w = .ok j ∧ j.usedBits = i.usedBits := by
  obtain ⟨hop, hfunct⟩ := op_funct_of_selects h
  exact decodeWord_of_op_funct hop hfunct (decodeWord_encode hwf)

/-- R90: a rejected word has no row of the table. -/
theorem not_selects_of_reject {w : Word} {e : DecodeReject} (h : decodeWord w = .error e) :
    ∀ r ∈ opcodeTable, ¬ r.selects w := by
  intro r hr hsel
  obtain ⟨i, hwf, rfl⟩ := exists_instr_of_row hr
  obtain ⟨j, hj, -⟩ := decodeWord_of_selects hwf hsel
  cases h.symm.trans hj

/-- Settles O53: a decoded word matches its row and, the rows being disjoint, no other; a rejected one matches none. -/
theorem decoderFollowsTheTable : Obligations.DecoderFollowsTheTable := by
  intro w
  refine ⟨fun i h => ?_, fun ⟨e, h⟩ => not_selects_of_reject h, fun hnone => ?_⟩
  · have hsel := row_selects_of_decode h
    exact ⟨row_mem_opcodeTable i, hsel, fun r hr hrw => row_unique hr (row_mem_opcodeTable i) hrw hsel⟩
  · rcases hd : decodeWord w with e | i
    · exact ⟨e, rfl⟩
    · exact absurd (row_selects_of_decode hd) (hnone i.row (row_mem_opcodeTable i))

/-- Settles O52: the other word is selected by the same row, so it decodes to an instruction with the same used bits; and two
instructions that encode to the same bits are one (`decodeWord_encode`). -/
theorem unusedFieldsAreIgnored : Obligations.UnusedFieldsAreIgnored := by
  intro w w' i h hagree
  obtain ⟨hwfi, henci⟩ := encode_decodeWord h
  have henci' : encode i = w' &&& i.usedBits := henci.trans hagree.symm
  obtain ⟨j, hj, hused⟩ := decodeWord_of_selects hwfi (row_selects_of_usedBits henci')
  obtain ⟨hwfj, hencj⟩ := encode_decodeWord hj
  have henc : encode j = encode i := by rw [hencj, henci', hused]
  have hji : decodeWord (encode j) = .ok i := henc ▸ decodeWord_encode hwfi
  exact hj.trans ((decodeWord_encode hwfj).symm.trans hji)

end Sys2Proof
end

section
/-! PROOFS. Reset and launch (spec/10_state.md R37, spec/70_reset_and_hazards.md R270). -/

namespace Sys2Proof.Machine

/-- The storage of x[0] is set to zero, whatever its draw. -/
theorem set_zero_getElem (regs : Vector Word 32) : (regs.set 0 0x00000000#32)[(0 : Reg)] = 0x00000000#32 :=
  Vector.getElem_set_self _

/-- The storage of every other register holds its draw. -/
theorem set_zero_getElem_of_ne (regs : Vector Word 32) {r : Reg} (hr : r ≠ Reg.zero) :
    (regs.set 0 0x00000000#32)[r] = regs[r] := by
  have hne : (0 : Nat) ≠ r.val := fun h => hr (Fin.ext h.symm)
  exact Vector.getElem_set_ne _ _ hne

/-- Settles O1: nothing is listed, no code, no request, and every register is 0. -/
theorem resetMeetsInvariant : Obligations.ResetMeetsInvariant := by
  refine ⟨rfl, ?_, ?_, ?_, ?_⟩
  · simp [State.reset]
  · simp [State.reset, Config.resetReg]
  · simp [State.reset]
  · simp [State.reset]

/-! ## The memory of a launch -/

/-- R37: the draws lie in canonical memory, below the ceiling. -/
def Launch.drawn (l : Launch) : Memory := Memory.lay [] 0 ((l.memDraws.take l.memSize.val).map some)

theorem launch_memory_eq (l : Launch) : l.memory = l.drawn.lay 0 l.image := rfl

theorem drawn_wf (l : Launch) : l.drawn.wf = true := lay_wf _ _ _ rfl

/-- R37: a byte of a launched image is its defined content, and else what the draws put there. -/
theorem read_launch_memory (l : Launch) (a : Nat) : l.memory.read a = (l.image[a]?.join).getD (l.drawn.read a) := by
  rw [launch_memory_eq, read_lay _ _ _ (drawn_wf l), if_pos (Nat.zero_le a), Nat.sub_zero]

theorem read_drawn {l : Launch} {a : Nat} {b : Byte} (h : a < l.memSize.val) (hb : l.memDraws[a]? = some b) :
    l.drawn.read a = b := by
  rw [Launch.drawn, read_lay _ _ _ rfl, if_pos (Nat.zero_le a), Nat.sub_zero, List.getElem?_map, List.getElem?_take,
    if_pos h, hb]
  rfl

theorem launch_memory_bounded {l : Launch} (h : l.image.length ≤ l.memSize.val) :
    ∀ c ∈ l.memory, c.1 < l.memSize.val := by
  have hdraws : 0 + ((l.memDraws.take l.memSize.val).map some).length ≤ l.memSize.val := by
    rw [List.length_map, List.length_take]
    omega
  rw [launch_memory_eq]
  exact lay_bounded _ 0 _ _ (lay_bounded [] 0 _ _ (by simp) hdraws) (by omega)

/-- R270: a launch that fits makes its state. -/
theorem launch_of_fits {l : Launch} (h : l.image.length ≤ l.memSize.val) : State.launch l = .next l.state :=
  if_pos (by rw [loadBase]; omega)

theorem launch_state_inv {l : Launch} (h : l.image.length ≤ l.memSize.val) : l.state.Inv :=
  ⟨lay_wf _ _ _ (drawn_wf l), launch_memory_bounded h, set_zero_getElem _, fun hne => absurd rfl hne, nofun⟩

/-- Settles O2: the registers and the memory are as the lemmas above say, and the other pieces are the launch's. -/
theorem launchSetsResetValues : Obligations.LaunchSetsResetValues := by
  intro l
  refine ⟨fun hfits => ⟨l.state, launch_of_fits hfits, readReg_zero _, fun r hr => ?regs, rfl, rfl, rfl, rfl, rfl,
    fun k b hk => ?image, fun a b ha hnone hb => ?draws, rfl, rfl, rfl, launch_state_inv hfits⟩, fun hlong => ?long⟩
  case regs => exact (readReg_of_ne_zero _ hr).trans (set_zero_getElem_of_ne _ hr)
  case image => exact (read_launch_memory l k).trans (by rw [hk]; rfl)
  case draws => exact (read_launch_memory l a).trans (by rw [hnone]; exact read_drawn ha hb)
  case long => exact if_neg (by rw [loadBase]; omega)

end Sys2Proof.Machine
end

section
/-! PROOFS. The layout of an image (spec/30_encoding.md R93, R94). -/

namespace Sys2Proof.Machine

theorem length_flatMap_bytesOfWord (values : List Word) : (values.flatMap bytesOfWord).length = 4 * values.length := by
  simp [List.length_flatMap, Nat.mul_comm]

/-- R93: a line advances the counter by the number of its bytes. -/
theorem line_bytes_length (line : Line) : line.bytes.length = line.size := by
  cases line with
  | dataHeader | textHeader | label | instr => rfl
  | word values => rw [Line.bytes, List.length_map, length_flatMap_bytesOfWord, Line.size]
  | space n => rw [Line.bytes, List.length_replicate, Line.size]
  | asciiz text => rw [Line.bytes, List.length_map, List.length_append, List.length_singleton, Line.size]

/-- R93: the address counter is the length of the image so far. -/
theorem imageOf_length (lines : List Line) : (imageOf lines).length = counterAfter lines := by
  rw [imageOf, List.length_flatMap, counterAfter]
  exact congrArg List.sum (List.map_congr_left fun line _ => line_bytes_length line)

/-- R94: an instruction's bytes stand in the image from the counter before its line on. -/
theorem imageOf_instr_getElem? (before after : List Line) (i : Instr) {k : Nat} (hk : k < 4) :
    (imageOf (before ++ .instr i :: after))[counterAfter before + k]? =
      some (some ((encode i).extractLsb' (8 * k) 8)) := by
  rw [imageOf, List.flatMap_append, List.flatMap_cons, ← imageOf_length, imageOf, List.getElem?_append_right (by omega),
    Nat.add_sub_cancel_left, List.getElem?_append_left (by exact hk)]
  interval_cases k <;> rfl

/-- R93: the instruction's word lies within the image. -/
theorem counterAfter_add_four_le (before after : List Line) (i : Instr) :
    counterAfter before + 4 ≤ (imageOf (before ++ .instr i :: after)).length := by
  rw [imageOf_length, counterAfter, counterAfter, List.map_append, List.sum_append, List.map_cons, List.sum_cons]
  exact Nat.add_le_add_left (Nat.le_add_right 4 _) _

/-- Settles O56: the four bytes at ENTRY are those of the encoded instruction, so the fetched word decodes to it. -/
theorem launchedImageRunsItsFirstInstruction : Obligations.LaunchedImageRunsItsFirstInstruction := by
  intro before after i l hwf himage hfits hentry
  have hroom : counterAfter before + 4 ≤ l.memSize.val :=
    (himage ▸ counterAfter_add_four_le before after i).trans hfits
  have hmax : l.memSize.val ≤ 4294967295 := l.memSize.atMost
  have hpc : l.state.pc.toNat = counterAfter before := by
    show l.entry.toNat = _
    rw [hentry, BitVec.toNat_ofNat]
    omega
  have hbyte : ∀ k, k < 4 → l.memory.read (counterAfter before + k) = (encode i).extractLsb' (8 * k) 8 := fun k hk => by
    rw [read_launch_memory, himage, imageOf_instr_getElem? before after i hk]
    rfl
  have hword : l.state.mem.readWord l.state.pc.toNat = encode i := by
    rw [hpc, Memory.readWord, ← wordOfBytes_bytesOfWord (encode i)]
    exact congr (congr (congr (congrArg wordOfBytes (hbyte 0 (by omega))) (hbyte 1 (by omega))) (hbyte 2 (by omega)))
      (hbyte 3 (by omega))
  refine ⟨l.state, launch_of_fits hfits, ?_⟩
  exact step_of_decode rfl ((inRange_iff _ _ 4).2 (hpc.symm ▸ hroom)) (hword.symm ▸ decodeWord_encode hwf)

end Sys2Proof.Machine
end
